-- ==== Sys2Proof/Word.lean ====
section
/-! DEFINITION. The bit-vector types of the block: bytes, 32-bit words, buffer offsets. -/

namespace Sys2Proof

/-- A byte of the stream, of `BUF` or of `DIGEST` (00 R8: byte width 8 bits). -/
abbrev Byte := BitVec 8

/-- A chaining word, working word, schedule word or command word (00 R8: word width 32 bits).
`+` on it is the `+32` of 00 R10: addition modulo 2^32, the carry discarded. -/
abbrev Word := BitVec 32

/-- An offset into `BUF` (10 R36: "byte-addressed by a 6-bit offset that the engine forms itself").
With six bits no access can fall outside the buffer (20 R52). -/
abbrev Offset := BitVec 6

end Sys2Proof
end

