-- ==== Sys2Proof/Syntax.lean ====
section
/-! DEFINITION. The commands a host can start: one constructor per row of spec/opcode_table.json (30 R60, R67).
The data bytes of an UPDATE are not part of its word: they follow on the data channel (30 R62). -/

namespace Sys2Proof

/-- 30 R60, R67: "The host can start exactly the three operations". -/
inductive Instr where
  /-- INIT, `init(state)` (40 R72). -/
  | init
  /-- UPDATE, `update(state, bytes, length)` (41 R77): `len` data bytes follow on the data channel. -/
  | update (len : Nat)
  /-- FINAL, `final(state, out[20])` (44 R108). -/
  | final
deriving DecidableEq, Repr

end Sys2Proof
end

