-- ==== Sys2Proof/WellFormed.lean ====
section
/-! DEFINITION. Which commands one command word can hold: the bound of 30 R61 on `LEN`. -/

namespace Sys2Proof

/-- 30 R61: "the 24-bit field bounds one command at 16,777,215 bytes". -/
def maxLen : Nat := 16777215

/-- A command that one word can encode. A longer chunk is several UPDATE commands (30 R70). -/
def Instr.wellFormed : Instr → Bool
  | .init => true
  | .update len => len ≤ maxLen
  | .final => true

end Sys2Proof
end

