-- ==== Sys2Proof/Decode.lean ====
section
/-! DEFINITION. The command word (30 R59): its two fields, decoding (30 R65) and, after it, encoding. -/

namespace Sys2Proof

/-- `OP = cmd[31:24]` (30 R59). -/
def fieldOp (w : Word) : BitVec 8 := w.extractLsb' 24 8

/-- `LEN = cmd[23:0]` (30 R59). -/
def fieldLen (w : Word) : BitVec 24 := w.extractLsb' 0 24

/-- The operation codes of 30 R60. -/
def opInit : BitVec 8 := 0x01
def opUpdate : BitVec 8 := 0x02
def opFinal : BitVec 8 := 0x03

/-- Why a word is reserved (30 R68; 93 U9). -/
inductive ReservedWord where
  /-- `OP` = 0x00 or `OP` in 0x04..0xFF, any `LEN`. -/
  | unassignedOp (op : BitVec 8)
  /-- `OP` = 0x01 or 0x03 with `LEN != 0`. -/
  | nonzeroLen (op : BitVec 8) (len : BitVec 24)
deriving DecidableEq, Repr

/-- The four outcomes of decoding, three of them commands (30 R65). -/
inductive Decoded where
  | instr (i : Instr)
  | reserved (why : ReservedWord)
deriving DecidableEq, Repr

/-- 30 R65: decoding is a total function on 32-bit words; `LEN` is used as it is (30 R61). -/
def decode (w : Word) : Decoded :=
  let op := fieldOp w
  let len := fieldLen w
  if op = opUpdate then .instr (.update len.toNat)
  else if op = opInit then (if len = 0 then .instr .init else .reserved (.nonzeroLen op len))
  else if op = opFinal then (if len = 0 then .instr .final else .reserved (.nonzeroLen op len))
  else .reserved (.unassignedOp op)

/-- The word with the given fields (30 R59): `OP` in bits 31:24, `LEN` in bits 23:0. -/
def commandWord (op : BitVec 8) (len : BitVec 24) : Word := op ++ len

/-- The word of a command (30 R60): INIT and FINAL have `LEN = 0`, UPDATE its byte count. -/
def encode : Instr → Word
  | .init => commandWord opInit 0
  | .update len => commandWord opUpdate (BitVec.ofNat 24 len)
  | .final => commandWord opFinal 0

/-- The `match` of a command's row (30 R60; opcode_table.json). -/
def tableMatch : Instr → Word
  | .init => 0x01000000
  | .update _ => 0x02000000
  | .final => 0x03000000

/-- The `mask` of a command's row (30 R60; opcode_table.json). -/
def tableMask : Instr → Word
  | .init => 0xFFFFFFFF
  | .update _ => 0xFF000000
  | .final => 0xFFFFFFFF

/-- The command the decoder reads from a word whose low `nbits` bits are those of `w`, the bits above being 0.
A command is one 32-bit word and is presented whole on the port `cmd` (30 R57), so no byte order enters. -/
def decodeTableWord (nbits w : Nat) : Option Instr :=
  let bits := w % 2 ^ nbits
  if bits < 2 ^ 32 then
    match decode (BitVec.ofNat 32 bits) with
    | .instr i => some i
    | .reserved _ => none
  else none

end Sys2Proof
end

