-- ==== Sys2Proof/Machine/State.lean ====
section
/-! DEFINITION. The state of the block (10 R16), the inputs the host presents on its ports (30 R57), the reasons a
step can stop, and the state after RESET (10 R40). -/

namespace Sys2Proof.Machine

/-- The contents of `BUF` as (offset, byte) pairs, offsets strictly rising, no pair holding the byte an unlisted offset
reads as (`Memory.wf` in Machine/Ops.lean; log entry 3). -/
abbrev Memory := List Host.Cell

/-- "The state of one engine is exactly the following elements" (10 R16), and no others. -/
structure Engine where
  /-- `H[0..4]`, the chaining words (10 R19). -/
  h : Vector Word 5
  /-- `COUNT`, the byte counter (10 R30). -/
  count : BitVec 64
  /-- `BUF[0..63]`, the pending buffer (10 R36). -/
  buf : Memory
  /-- `DIGEST[0..19]`, the digest output register (10 R33). -/
  digest : Vector Byte 20
  /-- `LIVE` (10 R25). -/
  live : Bool
  /-- `DVALID` (10 R26). -/
  dvalid : Bool
  /-- `FAULT`, sticky (10 R27). -/
  fault : Bool
  /-- `FCODE` (10 R28). -/
  fcode : BitVec 2
  /-- `V[0..4]`, the working words (10 R21). -/
  v : Vector Word 5
  /-- `WIN[0..15]`, the schedule window (10 R35). -/
  win : Vector Word 16
  /-- `T`, the round index (10 R24). -/
  t : BitVec 7
  /-- `BITLEN`, the bit-length latch (10 R34). -/
  bitlen : BitVec 64
deriving DecidableEq, Repr

/-- What the host presents on the input ports (30 R57). These are inputs, not engine state (10 R17); they stand in the
state so that a step is a function of plain data (log entry 1). -/
structure Ports where
  /-- `rst` is asserted (70 R136). -/
  rst : Bool
  /-- The words on the command channel, oldest first: `cmd_valid` is 1 when there is one, and `cmd` is the first. -/
  cmd : List Word
  /-- The bytes on the data channel, in stream order: `din_valid` is 1 when there is one, and `din` is the first. -/
  din : List Byte
deriving DecidableEq, Repr

/-- The machine: the engine, the progress of the command it is executing, and what the host presents. -/
structure State where
  eng : Engine
  /-- How many data bytes the executing UPDATE has still to accept; 0 when no command is executing
  (30 R58, 41 R86; log entry 2). -/
  remaining : Nat
  ports : Ports
  /-- The MODEL's own counter: it picks the free value on the output ports while a command is executing
  (30 R58; log entry 4). -/
  sample : Nat
deriving DecidableEq, Repr

/-- The reasons a step stops. The two faults of 60 R126 are not among them: taking one is a next state. -/
inductive Fault where
  /-- `FAULT = 1` and `rst` is not asserted: HALTED, "no step is possible" but RESET (60 R131, R132; 93 U14). It carries
  `FCODE`. Raised by `step`, and by a meaning handed a command in HALTED. Safe: the machine stops where the hardware
  does nothing. -/
  | halted (code : BitVec 2)
  /-- A meaning was handed a command while an UPDATE is executing, when `cmd_ready = 0` (30 R58). `step` never does so:
  the word waits on the port. Safe. -/
  | commandWhileBusy
deriving DecidableEq, Repr

/-- The reasons an instruction has no meaning. -/
inductive Refusal where
  /-- An instruction the model gives no meaning yet. Raised by no arm of `exec`: every command is modelled. Safe. -/
  | notModelled (mnemonic : String)
deriving DecidableEq, Repr

/-- Every element of 10 R16 at its value after RESET (10 R40): all zero. -/
def Engine.reset : Engine where
  h := #v[0, 0, 0, 0, 0]
  count := 0
  buf := []
  digest := #v[0, 0, 0, 0, 0, 0, 0, 0, 0, 0, 0, 0, 0, 0, 0, 0, 0, 0, 0, 0]
  live := false
  dvalid := false
  fault := false
  fcode := 0
  v := #v[0, 0, 0, 0, 0]
  win := #v[0, 0, 0, 0, 0, 0, 0, 0, 0, 0, 0, 0, 0, 0, 0, 0]
  t := 0
  bitlen := 0

/-- The host presents nothing (log entry 1). -/
def Ports.quiet : Ports where
  rst := false
  cmd := []
  din := []

/-- The machine right after RESET (10 R40, 70 R136), the host presenting nothing. -/
def State.reset : State where
  eng := Engine.reset
  remaining := 0
  ports := Ports.quiet
  sample := 0

end Sys2Proof.Machine
end

