-- ==== Sys2Proof/Machine/Operands.lean ====
section
/-! DEFINITION. The operand forms: the byte count of a command, the bytes of the data channel, big-endian values
(20 R43), rotation (00 R11), and the bit length (00 R14). -/

namespace Sys2Proof.Machine

/-- How many data bytes a command takes from the data channel (30 R60): `LEN` for UPDATE, none for the others. -/
def operandLen : Instr → Nat
  | .init => 0
  | .update len => len
  | .final => 0

/-- The data bytes the engine can accept now: at most `remaining` of those presented, in stream order (30 R62). -/
def acceptable (s : State) : List Byte := s.ports.din.take s.remaining

/-- The big-endian value of a byte string, most-significant byte first (20 R43, R48). -/
def beValue : List Byte → Nat
  | [] => 0
  | b :: bs => b.toNat * 2 ^ (8 * bs.length) + beValue bs

/-- Byte `j` of the `n`-byte big-endian image of `v`: `floor(v / 2^(8 * (n - 1 - j))) mod 256` (20 R49). -/
def beByte (n v j : Nat) : Byte := BitVec.ofNat 8 (v / 2 ^ (8 * (n - 1 - j)))

/-- The `n`-byte big-endian image of `v` (20 R49; `be64` of 44 R113 is `beBytes 8`). -/
def beBytes (n v : Nat) : List Byte := (List.range n).map (beByte n v)

/-- `rotl(x, n)` (00 R11), for the amounts 1, 5 and 30 the block uses. -/
def rotl (x : Word) (n : Nat) : Word := BitVec.ofNat 32 (x.toNat * 2 ^ n % 2 ^ 32 + x.toNat / 2 ^ (32 - n))

/-- The offset at which the next byte is stored: `COUNT mod 64`, that is `COUNT[5:0]` (10 R30). -/
def pendingOffset (count : BitVec 64) : Offset := count.extractLsb' 0 6

/-- The bit length `(COUNT * 8) mod 2^64` (00 R14, 44 R110). -/
def bitLength (count : BitVec 64) : BitVec 64 := BitVec.ofNat 64 (count.toNat * 8)

end Sys2Proof.Machine
end

