-- ==== Sys2Proof/Machine/Compress.lean ====
section
/-! DEFINITION. The compression function in closed form: phases (43 R94 to R99), the round on role values (43 R100), the
80-word schedule (42 R89), `compress` (43 R105), and the digest of a byte string (44 R113, R117; 43 R107). The round
functions, constants and IV serve the micro-steps of Machine/Transform.lean too. -/

namespace Sys2Proof.Machine

/-- The four phases of twenty rounds (43 R94). -/
inductive Phase where
  | p0
  | p1
  | p2
  | p3
deriving DecidableEq, Repr

/-- The phase of round `t`, `floor(t / 20)` (43 R94). -/
def phaseOf (t : Nat) : Phase :=
  match t / 20 with
  | 0 => .p0
  | 1 => .p1
  | 2 => .p2
  | _ => .p3

/-- `f_0` (43 R95). -/
def f0 (b c d : Word) : Word := (b &&& c) ^^^ (~~~b &&& d)

/-- `f_1` (43 R96). -/
def f1 (b c d : Word) : Word := b ^^^ c ^^^ d

/-- `f_2` (43 R97). -/
def f2 (b c d : Word) : Word := (b &&& c) ||| (b &&& d) ||| (c &&& d)

/-- `f_3` (43 R98). -/
def f3 (b c d : Word) : Word := b ^^^ c ^^^ d

/-- `f(t, b, c, d)` (43 R99). -/
def roundFn (t : Nat) (b c d : Word) : Word :=
  match phaseOf t with
  | .p0 => f0 b c d
  | .p1 => f1 b c d
  | .p2 => f2 b c d
  | .p3 => f3 b c d

/-- `K(t)` (43 R99). -/
def roundConst (t : Nat) : Word :=
  match phaseOf t with
  | .p0 => 0x5A827999
  | .p1 => 0x6ED9EBA1
  | .p2 => 0x8F1BBCDC
  | .p3 => 0xCA62C1D6

/-- The initial chaining value `IV` (40 R71). -/
def iv : Vector Word 5 := #v[0x67452301, 0xEFCDAB89, 0x98BADCFE, 0x10325476, 0xC3D2E1F0]

/-- The values of the five roles (43 R100). -/
structure Roles where
  a : Word
  b : Word
  c : Word
  d : Word
  e : Word
deriving DecidableEq, Repr

/-- One round as a function on the role values (43 R100); `f` reads `b` before it is rotated (70 R144). -/
def roundOf (t : Nat) (r : Roles) (w : Word) : Roles where
  a := r.e + roundFn t r.b r.c r.d + rotl r.a 5 + roundConst t + w
  b := r.a
  c := rotl r.b 30
  d := r.c
  e := r.d

/-- Rounds `0, ..., n - 1` on the schedule `ws`, in that order (43 R103, R105). -/
def rounds (ws : List Word) : Nat → Roles → Roles
  | 0, r => r
  | n + 1, r => roundOf n (rounds ws n r) (ws.getD n 0)

/-- The role values a chaining value starts the rounds with: `r_0` (43 R105). -/
def rolesOf (h : Vector Word 5) : Roles where
  a := h[0]
  b := h[1]
  c := h[2]
  d := h[3]
  e := h[4]

/-- Word `i` of a 64-byte block, `M_i`, its four bytes taken big-endian (20 R44). -/
def blockWord (block : List Byte) (i : Nat) : Word := BitVec.ofNat 32 (beValue ((block.drop (4 * i)).take 4))

/-- The sixteen words `M_0 .. M_15` of a block. -/
def blockWords (block : List Byte) : List Word := (List.range 16).map (blockWord block)

/-- The schedule word that follows the words `ws = W_0 .. W_{t-1}`, `t >= 16` (42 R89). -/
def nextWord (ws : List Word) : Word :=
  let t := ws.length
  rotl (ws.getD (t - 3) 0 ^^^ ws.getD (t - 8) 0 ^^^ ws.getD (t - 14) 0 ^^^ ws.getD (t - 16) 0) 1

/-- `W_0 .. W_{15 + n}` from the sixteen block words (42 R89). -/
def extend (ms : List Word) : Nat → List Word
  | 0 => ms
  | n + 1 => extend ms n ++ [nextWord (extend ms n)]

/-- The eighty schedule words of a block (42 R89). Irreducible: see `allRoundsOf`. -/
@[irreducible] def schedule (block : List Byte) : List Word := extend (blockWords block) 64

/-- `r_80` from `r_0` (43 R105). Irreducible, so that no proof unfolds eighty rounds by accident. -/
@[irreducible] def allRoundsOf (ws : List Word) (r : Roles) : Roles := rounds ws 80 r

/-- `compress(h, B)` (43 R105). -/
def compress (h : Vector Word 5) (block : List Byte) : Vector Word 5 :=
  let r := allRoundsOf (schedule block) (rolesOf h)
  #v[h[0] + r.a, h[1] + r.b, h[2] + r.c, h[3] + r.d, h[4] + r.e]

/-- The number of zero bytes FINAL absorbs when `j` bytes are pending, `(55 - j) mod 64` (44 R112). -/
def zeroCount (j : Nat) : Nat := (55 + 64 * j - j) % 64

/-- `pad(s)` (44 R113). -/
def pad (s : List Byte) : List Byte :=
  s ++ 0x80 :: List.replicate (zeroCount s.length) 0x00 ++ beBytes 8 (8 * s.length % 2 ^ 64)

/-- The first `n` 64-byte blocks of a byte string. -/
def firstBlocks : Nat → List Byte → List (List Byte)
  | 0, _ => []
  | n + 1, s => s.take 64 :: firstBlocks n (s.drop 64)

/-- The whole 64-byte blocks of a byte string, in order (43 R107; 10 R20). -/
def wholeBlocks (s : List Byte) : List (List Byte) := firstBlocks (s.length / 64) s

/-- The chain `h_0 = h`, `h_{k+1} = compress(h_k, B_k)`, its last value (43 R107). -/
def chain (h : Vector Word 5) (blocks : List (List Byte)) : Vector Word 5 := blocks.foldl compress h

/-- Byte `k` of word `w`, counting from the most-significant end: bits `31-8k : 24-8k` (44 R117). -/
def wordByte (w : Word) (k : Nat) : Byte := w.extractLsb' (24 - 8 * k) 8

/-- `ser(h)`, the five words with each word's most-significant byte first (44 R117). -/
def serialize (h : Vector Word 5) : Vector Byte 20 :=
  #v[wordByte h[0] 0, wordByte h[0] 1, wordByte h[0] 2, wordByte h[0] 3,
     wordByte h[1] 0, wordByte h[1] 1, wordByte h[1] 2, wordByte h[1] 3,
     wordByte h[2] 0, wordByte h[2] 1, wordByte h[2] 2, wordByte h[2] 3,
     wordByte h[3] 0, wordByte h[3] 1, wordByte h[3] 2, wordByte h[3] 3,
     wordByte h[4] 0, wordByte h[4] 1, wordByte h[4] 2, wordByte h[4] 3]

/-- The digest of a byte string: the serialised end of the chain over its padded blocks (43 R107, 44 R109). -/
def digestOf (s : List Byte) : Vector Byte 20 := serialize (chain iv (wholeBlocks (pad s)))

end Sys2Proof.Machine
end

