-- ==== Sys2Proof/Config.lean ====
section
/-! DEFINITION. What the spec leaves open: the values on the output ports while a command is executing.
The spec fixes every parameter of the block (00 R8, R9), so nothing else stands here. -/

namespace Sys2Proof

/-- FREE VALUE (log entry 4). The value on `digest[159:0]` while `cmd_ready = 0` and `FAULT = 0` is
"unspecified" (30 R58, 93 U12). It is applied to the counter `State.sample`; nothing constrains it. -/
opaque Config.busyDigest : Nat → BitVec 160

/-- FREE VALUE (log entry 4). The value on `status[7:0]` while `cmd_ready = 0` and `FAULT = 0` is
"unspecified" (30 R58, 93 U12). It is applied to the counter `State.sample`; nothing constrains it. -/
opaque Config.busyStatus : Nat → BitVec 8

end Sys2Proof
end

