-- ==== Sys2Proof/Machine/Flags.lean ====
section
/-! DEFINITION. The flags and the output ports: `cmd_ready` and `din_ready` (30 R58), the status byte (10 R32, 30 R64),
the digest port (30 R63) and the lifecycle condition (10 R29). -/

namespace Sys2Proof.Machine

/-- The lifecycle conditions of 10 R29. -/
inductive Condition where
  | void
  | live
  | halted
deriving DecidableEq, Repr

/-- The condition the flags give (10 R29). -/
def condition (e : Engine) : Condition :=
  if e.fault then .halted else if e.live then .live else .void

/-- `cmd_ready` "is 1 exactly when `FAULT = 0` and no command is executing" (30 R58). -/
def cmdReady (s : State) : Bool := !s.eng.fault && s.remaining == 0

/-- `din_ready`: an UPDATE is executing and has bytes to accept (30 R58); 0 in HALTED (60 R131; log entry 5). -/
def dinReady (s : State) : Bool := !s.eng.fault && s.remaining != 0

/-- The one-bit vector of a flag. -/
def flagBit (b : Bool) : BitVec 1 := BitVec.ofBool b

/-- The status byte (10 R32): `status[0] = LIVE`, `[1] = DVALID`, `[2] = FAULT`, `[4:3] = FCODE`, `[7:5] = 0`. -/
def statusByte (e : Engine) : BitVec 8 :=
  (0 : BitVec 3) ++ e.fcode ++ flagBit e.fault ++ flagBit e.dvalid ++ flagBit e.live

/-- `digest[159:0]` as 30 R63 lays it out: `digest[159 - 8j : 152 - 8j] = DIGEST[j]`. -/
def digestWord (e : Engine) : BitVec 160 :=
  BitVec.ofNat 160 (e.digest.toList.foldl (fun acc b => acc * 256 + b.toNat) 0)

/-- Whether the values on `digest` and `status` are specified: "only while `cmd_ready = 1` or `FAULT = 1`" (30 R58). -/
def portsSpecified (s : State) : Bool := cmdReady s || s.eng.fault

/-- The port `status` (30 R64); a free value while a command is executing (30 R58; log entry 4). -/
def statusPort (s : State) : BitVec 8 :=
  if portsSpecified s then statusByte s.eng else Config.busyStatus s.sample

/-- The port `digest` (30 R63); a free value while a command is executing (30 R58; log entry 4). -/
def digestPort (s : State) : BitVec 160 :=
  if portsSpecified s then digestWord s.eng else Config.busyDigest s.sample

end Sys2Proof.Machine
end

