-- ==== Sys2Proof/Machine/Ops.lean ====
section
/-! DEFINITION. The named operations: `BUF` accesses (20 R48, R49), register accesses, accepting a command (30 R58),
taking a fault (60 R130) and RESET, its only exit (70 R136). -/

namespace Sys2Proof.Machine

/-- What an unlisted offset reads as: 0x00, the contents of `BUF` after RESET (10 R40; log entry 3). -/
def Memory.unlisted : Byte := 0

/-- The canonical form of `BUF`: offsets strictly rising, each below 64, no pair holding the unlisted byte. -/
abbrev Memory.wf (m : Memory) : Prop :=
  (m.map Prod.fst).Pairwise (· < ·) ∧ ∀ c ∈ m, c.1 < 64 ∧ c.2 ≠ Memory.unlisted

/-- `BUF[k]`. -/
def Memory.read : Memory → Offset → Byte
  | [], _ => Memory.unlisted
  | c :: m, k => if c.1 = k.toNat then c.2 else Memory.read m k

/-- `m` with nothing listed at `k`. -/
def Memory.unlist (m : Memory) (k : Offset) : Memory := m.filter fun c => c.1 != k.toNat

/-- `m` with the pair `(k, x)` put before the first larger offset. -/
def Memory.enlist : Memory → Offset → Byte → Memory
  | [], k, x => [(k.toNat, x)]
  | c :: m, k, x => if k.toNat < c.1 then (k.toNat, x) :: c :: m else c :: Memory.enlist m k x

/-- `BUF[k] <- x` (20 R49 with `n = 1`), in canonical form: writing the unlisted byte removes the entry. -/
def Memory.write (m : Memory) (k : Offset) (x : Byte) : Memory :=
  if x = Memory.unlisted then m.unlist k else (m.unlist k).enlist k x

/-- The bytes `BUF[k] .. BUF[k + n - 1]`. -/
def Memory.bytes (m : Memory) (k : Offset) (n : Nat) : List Byte :=
  (List.range n).map fun j => m.read (k + BitVec.ofNat 6 j)

/-- `MemRead(k, n)` (20 R48): the big-endian value of the `n` bytes at `k`; the caller has `k + n <= 64`. -/
def Memory.memRead (m : Memory) (k : Offset) (n : Nat) : Nat := beValue (m.bytes k n)

/-- The bytes `bs` written at `k`, `k + 1`, ... in that order. -/
def Memory.copyIn : Memory → Offset → List Byte → Memory
  | m, _, [] => m
  | m, k, x :: bs => Memory.copyIn (m.write k x) (k + 1) bs

/-- `MemWrite(k, n, v)` (20 R49): the `n`-byte big-endian image of `v` at `k`; the caller has `k + n <= 64`. -/
def Memory.memWrite (m : Memory) (k : Offset) (n v : Nat) : Memory := m.copyIn k (beBytes n v)

/-- All 64 bytes of `BUF`, the block a TRANSFORM reads (20 R50). -/
def Memory.block (m : Memory) : List Byte := m.bytes 0 64

/-- The transient elements a TRANSFORM works on (10 R16, R18): the round transform pipeline and the schedule window. -/
structure Pipeline where
  /-- `V[0..4]` (10 R21). -/
  v : Vector Word 5
  /-- `WIN[0..15]` (10 R35). -/
  win : Vector Word 16
  /-- `T` (10 R24). -/
  t : BitVec 7
deriving DecidableEq, Repr

/-- `WIN[i mod 16]` (10 R35). -/
def Pipeline.winAt (p : Pipeline) (i : Nat) : Word := p.win[i % 16]'(Nat.mod_lt _ (by decide))

/-- `WIN[i mod 16] <- w` (10 R35). -/
def Pipeline.setWin (p : Pipeline) (i : Nat) (w : Word) : Pipeline :=
  { p with win := p.win.set (i % 16) w (Nat.mod_lt _ (by decide)) }

/-- The index of the word in role `k` at round `t`, `(k - t) mod 5` (43 R101); `5 * t` keeps the difference from going
below zero and does not change it modulo 5. Roles `a, b, c, d, e` are `k = 0, 1, 2, 3, 4`. -/
def roleIndex (k t : Nat) : Nat := (k + 5 * t - t) % 5

theorem roleIndex_lt (k t : Nat) : roleIndex k t < 5 := Nat.mod_lt _ (by decide)

/-- The word in role `k` at round `t` (43 R101). -/
def Pipeline.role (p : Pipeline) (k t : Nat) : Word := p.v[roleIndex k t]'(roleIndex_lt k t)

/-- Write the word in role `k` at round `t` (43 R101). -/
def Pipeline.setRole (p : Pipeline) (k t : Nat) (w : Word) : Pipeline :=
  { p with v := p.v.set (roleIndex k t) w (roleIndex_lt k t) }

/-- The two faults of 60 R126. -/
inductive CommandFault where
  /-- An accepted word decodes to Reserved (60 R127). -/
  | reservedCommand
  /-- UPDATE or FINAL accepted while `LIVE = 0` (60 R128). -/
  | protocolFault
deriving DecidableEq, Repr

/-- The value recorded in `FCODE` (60 R126). -/
def CommandFault.code : CommandFault → BitVec 2
  | .reservedCommand => 1
  | .protocolFault => 2

/-- Taking a fault (60 R130): `FAULT <- 1`, `FCODE <- c`, and nothing else. -/
def Engine.raise (e : Engine) (c : CommandFault) : Engine := { e with fault := true, fcode := c.code }

/-- Taking a fault, in the machine: there is no vector and no handler (60 R130); no data byte is accepted. -/
def State.raise (s : State) (c : CommandFault) : State := { s with eng := s.eng.raise c }

/-- RESET (70 R136), the only exit from HALTED (60 R132): every element takes its value of 10 R40, a command being
executed is abandoned, and no presented word or byte is accepted. The event is consumed (log entry 6). -/
def State.takeReset (s : State) : State :=
  { s with eng := Engine.reset, remaining := 0, ports := { s.ports with rst := false } }

/-- Run `body` if the engine can accept a command (30 R58); a command handed to it otherwise is not accepted. -/
def accepting (s : State) (body : State → Host.Outcome State Fault Refusal) : Host.Outcome State Fault Refusal :=
  if s.eng.fault then .fault (.halted s.eng.fcode)
  else if s.remaining = 0 then body s
  else .fault .commandWhileBusy

/-- Run `body` if a computation is open, else raise `ProtocolFault` (60 R128; the precondition of 41 R77 and 44 R108). -/
def requiringLive (s : State) (body : State → Host.Outcome State Fault Refusal) : Host.Outcome State Fault Refusal :=
  if s.eng.live then body s else .next (s.raise .protocolFault)

end Sys2Proof.Machine
end

