-- ==== Sys2Proof/Machine/Transform.lean ====
section
/-! DEFINITION. TRANSFORM as the hardware performs it (42 R87): block load (42 R88), the schedule step on the window
(42 R90), the round step with rotating role indices (43 R101), the add-back (43 R104). -/

namespace Sys2Proof.Machine

/-- LOADBLOCK (42 R88): the words of `BUF`, the chaining words, and round 0. The only place where bytes become words
(20 R46). -/
def loadBlock (buf : Memory) (h : Vector Word 5) : Pipeline where
  v := h
  win := Vector.ofFn fun i : Fin 16 => BitVec.ofNat 32 (buf.memRead (BitVec.ofNat 6 (4 * i.val)) 4)
  t := 0

/-- SCHED (42 R90), at round `T`. -/
def Pipeline.sched (p : Pipeline) : Pipeline :=
  let t := p.t.toNat
  if 16 ≤ t then
    p.setWin t (rotl (p.winAt (t - 3) ^^^ p.winAt (t - 8) ^^^ p.winAt (t - 14) ^^^ p.winAt t) 1)
  else p

/-- ROUND (43 R101), at round `T`: role `e` is written from the unrotated role `b`, then role `b` is rotated. -/
def Pipeline.round (p : Pipeline) : Pipeline :=
  let t := p.t.toNat
  let sum := p.role 4 t + roundFn t (p.role 1 t) (p.role 2 t) (p.role 3 t) + rotl (p.role 0 t) 5 + roundConst t + p.winAt t
  let p1 := p.setRole 4 t sum
  let p2 := p1.setRole 1 t (rotl (p1.role 1 t) 30)
  { p2 with t := p.t + 1 }

/-- The values of the five roles at round `t`, read through the index mapping (43 R101, R102). -/
def Pipeline.rolesAt (p : Pipeline) (t : Nat) : Roles where
  a := p.role 0 t
  b := p.role 1 t
  c := p.role 2 t
  d := p.role 3 t
  e := p.role 4 t

/-- One SCHED and then one ROUND, in lock-step (42 R93), `n` times. -/
def Pipeline.runRounds : Nat → Pipeline → Pipeline
  | 0, p => p
  | n + 1, p => (Pipeline.runRounds n p).sched.round

/-- All eighty rounds (42 R87). Irreducible, so that no proof unfolds eighty rounds by accident. -/
@[irreducible] def Pipeline.allRounds (p : Pipeline) : Pipeline := Pipeline.runRounds 80 p

/-- ADDBACK (43 R104): `H` is written, and the transients keep the values the rounds left (10 R21, R24, R35). -/
def Engine.addBack (e : Engine) (p : Pipeline) : Engine :=
  { e with
    h := #v[e.h[0] + p.v[0], e.h[1] + p.v[1], e.h[2] + p.v[2], e.h[3] + p.v[3], e.h[4] + p.v[4]]
    v := p.v
    win := p.win
    t := p.t }

/-- TRANSFORM (42 R87): always exactly 80 rounds. -/
def Engine.transform (e : Engine) : Engine := e.addBack (loadBlock e.buf e.h).allRounds

end Sys2Proof.Machine
end

