-- ==== Sys2Proof/Machine/Update.lean ====
section
/-! DEFINITION. UPDATE (41 R77): byte by byte, as the hardware executes it (41 R82, R83), and the source's chunked
pseudocode (41 R77) beside it. -/

namespace Sys2Proof.Machine

/-- The step after a byte is stored: count it, and transform the block if it filled (41 R82). -/
def Engine.absorb (e : Engine) (x : Byte) : Engine :=
  let k := pendingOffset e.count
  let e1 := { e with buf := e.buf.write k x, count := e.count + 1 }
  if k = 63 then e1.transform else e1

/-- ABSORB of each byte of a string, in order (41 R83). -/
def Engine.absorbAll (e : Engine) (bs : List Byte) : Engine := bs.foldl Engine.absorb e

/-- The executing UPDATE takes the bytes the host presents, up to the number it still needs (30 R62). If it needs more
it stays executing, the bytes taken stay absorbed (41 R86, 93 U8), and the output ports stay unspecified
(30 R58; log entry 4). -/
def State.absorbOffered (s : State) : State :=
  let left := s.remaining - s.ports.din.length
  { eng := s.eng.absorbAll (acceptable s)
    remaining := left
    ports := { s.ports with din := s.ports.din.drop s.remaining }
    sample := if left = 0 then s.sample else s.sample + 1 }

/-- UPDATE (41 R77): `ProtocolFault` if `LIVE = 0`, taken before any data byte is accepted. -/
def execUpdate (len : Nat) (s : State) : Host.Outcome State Fault Refusal :=
  accepting s fun s => requiringLive s fun s => .next { s with remaining := len }.absorbOffered

/-- The bytes `bs` copied to `BUF` from offset `j` (the inner loops of 41 R77). -/
def Engine.copyIn (e : Engine) (j : Nat) (bs : List Byte) : Engine :=
  { e with buf := e.buf.copyIn (BitVec.ofNat 6 j) bs }

/-- The loop of step 3 of 41 R77, `while i + 63 < LEN`: the index `i` and the engine after it. `fuel` bounds the number
of turns; `d.length` turns are always enough. -/
def Engine.fillLoop (d : List Byte) : Nat → Nat → Engine → Nat × Engine
  | 0, i, e => (i, e)
  | fuel + 1, i, e =>
    if i + 63 < d.length then Engine.fillLoop d fuel (i + 64) (e.copyIn 0 ((d.drop i).take 64)).transform
    else (i, e)

/-- UPDATE in the source's chunked form, step by step (41 R77). -/
def Engine.updateChunked (e : Engine) (d : List Byte) : Engine :=
  let j := (pendingOffset e.count).toNat
  let e1 := { e with count := e.count + BitVec.ofNat 64 d.length }
  if j + d.length > 63 then
    let i := 64 - j
    let r := Engine.fillLoop d d.length i (e1.copyIn j (d.take i)).transform
    r.2.copyIn 0 (d.drop r.1)
  else e1.copyIn j d

end Sys2Proof.Machine
end

