-- ==== Sys2Proof/Machine/Final.lean ====
section
/-! DEFINITION. FINAL (44 R108): its six steps, and the closed form of 44 R119 beside them. -/

namespace Sys2Proof.Machine

/-- Step 1 (44 R110): latch the bit length before any padding byte is absorbed. -/
def Engine.latchBitLength (e : Engine) : Engine := { e with bitlen := bitLength e.count }

/-- Step 2 (44 R111): absorb 0x00 until `COUNT mod 64 = 56`. At most 63 zero bytes are absorbed (44 R112), so `fuel = 64`
turns are enough. -/
def Engine.padZeros : Nat → Engine → Engine
  | 0, e => e
  | fuel + 1, e => if pendingOffset e.count = 56 then e else Engine.padZeros fuel (e.absorb 0x00)

/-- Step 3 (44 R114): a direct store of `BITLEN` at 56..63; `COUNT` does not change. -/
def Engine.storeLength (e : Engine) : Engine := { e with buf := e.buf.memWrite 56 8 e.bitlen.toNat }

/-- Step 5 (44 R117): the chaining words to `DIGEST`, and `DVALID <- 1`. -/
def Engine.emitDigest (e : Engine) : Engine := { e with digest := serialize e.h, dvalid := true }

/-- Step 6, WIPE (44 R118): everything but `DIGEST`, `DVALID`, `FAULT` and `FCODE` to zero. -/
def Engine.wipe (e : Engine) : Engine :=
  { e with
    h := Engine.reset.h
    count := 0
    buf := Engine.reset.buf
    live := false
    v := Engine.reset.v
    win := Engine.reset.win
    t := 0
    bitlen := 0 }

/-- The engine just before the last TRANSFORM: steps 1 to 3. -/
def Engine.padded (e : Engine) : Engine := (Engine.padZeros 64 (e.latchBitLength.absorb 0x80)).storeLength

/-- The effect of FINAL on the engine (44 R108), the source's six steps in order. -/
def Engine.finalize (e : Engine) : Engine := e.padded.transform.emitDigest.wipe

/-- FINAL (44 R108): `ProtocolFault` if `LIVE = 0`, with no other state change. -/
def execFinal (s : State) : Host.Outcome State Fault Refusal :=
  accepting s fun s => requiringLive s fun s => .next { s with eng := s.eng.finalize }

/-- `P` of 44 R119: the pending bytes, 0x80, the zero bytes and the length, one or two blocks. -/
def Engine.lastBytes (e : Engine) : List Byte :=
  let j := (pendingOffset e.count).toNat
  e.buf.bytes 0 j ++ 0x80 :: List.replicate (zeroCount j) 0x00 ++ beBytes 8 (bitLength e.count).toNat

/-- The chaining value FINAL ends with, as the function of 44 R119: one block if `j <= 55`, else two. -/
def Engine.lastChaining (e : Engine) : Vector Word 5 :=
  if (pendingOffset e.count).toNat ≤ 55 then compress e.h e.lastBytes
  else compress (compress e.h (e.lastBytes.take 64)) (e.lastBytes.drop 64)

end Sys2Proof.Machine
end

