-- ==== Sys2Proof/Machine/Init.lean ====
section
/-! DEFINITION. INIT (40 R72). -/

namespace Sys2Proof.Machine

/-- The effect of INIT on the engine (40 R72): `H`, `COUNT` and `LIVE`, and nothing else. -/
def Engine.init (e : Engine) : Engine := { e with h := iv, count := 0, live := true }

/-- INIT (40 R72): legal in VOID and in LIVE, not accepted in HALTED. -/
def execInit (s : State) : Host.Outcome State Fault Refusal :=
  accepting s fun s => .next { s with eng := s.eng.init }

end Sys2Proof.Machine
end

