-- ==== Sys2Proof/Machine/Turn.lean ====
section
/-! DEFINITION. One turn of the engine: RESET first (60 R129), then HALTED (60 R131), then an UPDATE that waits for data
(41 R86), then the next command word (30 R66). -/

namespace Sys2Proof.Machine

/-- The state with the words `ws` presented on the command channel. -/
def State.withCommands (s : State) (ws : List Word) : State := { s with ports := { s.ports with cmd := ws } }

/-- Executing an accepted command word (30 R66): decoding comes first (60 R129), and a reserved word faults
(60 R127). -/
def acceptWord (w : Word) (s : State) : Host.Outcome State Fault Refusal :=
  match decode w with
  | .instr i => exec i s
  | .reserved _ => .next (s.raise .reservedCommand)

/-- An idle engine accepts the oldest presented word, or waits for one: "an idle engine simply has `cmd_ready = 1`"
(60 section 9; log entry 7). -/
def acceptNext (s : State) : Host.Outcome State Fault Refusal :=
  match s.ports.cmd with
  | [] => .next s
  | w :: ws => acceptWord w (s.withCommands ws)

/-- One turn of the engine on what the host presents. -/
def turn (s : State) : Host.Outcome State Fault Refusal :=
  if s.ports.rst then .next s.takeReset
  else if s.eng.fault then .fault (.halted s.eng.fcode)
  else if s.remaining = 0 then acceptNext s
  else .next s.absorbOffered

/-- The state in which the host presents the word `w` first, with no reset asserted and no UPDATE executing, so that the
next turn accepts it unless the engine is halted (log entry 8). -/
def State.presentFirst (s : State) (w : Word) : State :=
  { s with remaining := 0, ports := { s.ports with rst := false, cmd := w :: s.ports.cmd } }

end Sys2Proof.Machine
end

