-- ==== Sys2Proof/Machine/Step.lean ====
section
/-! DEFINITION. One step of the machine: one turn of the engine (00 R6), and where its next instruction is fetched: the
command port (10 R23). -/

namespace Sys2Proof.Machine

/-- One step: one whole command, one RESET, one fault, or the engine waiting (00 R6; log entries 2 and 7). -/
def step (s : State) : Host.Outcome State Fault Refusal := turn s

/-- `s` with the word whose low `nbits` bits are those of `w` presented first on the command port, so that the next step
accepts it. A program is never fetched: the host presents it, word by word (10 R23; log entry 8). -/
def State.withFetchWord (s : State) (nbits w : Nat) : State := s.presentFirst (BitVec.ofNat 32 (w % 2 ^ nbits))

end Sys2Proof.Machine
end

