-- ==== Sys2Proof/Machine/HostPort.lean ====
section
/-! DEFINITION. The host's moves between two steps (00 R5, 30 R57, 70 R148): it changes what the input ports present and
nothing else, for no port gives it access to the engine's state (10 R39). -/

namespace Sys2Proof.Machine

/-- The host puts one more word on the command channel. -/
def State.present (s : State) (w : Word) : State := { s with ports := { s.ports with cmd := s.ports.cmd ++ [w] } }

/-- The host puts more bytes on the data channel, in stream order (30 R62). -/
def State.supply (s : State) (bs : List Byte) : State := { s with ports := { s.ports with din := s.ports.din ++ bs } }

/-- The host asserts `rst` (70 R136). -/
def State.assertReset (s : State) : State := { s with ports := { s.ports with rst := true } }

/-- The host presents exactly the word of `i` and exactly the data bytes `bs`, and no reset. -/
def State.offer (s : State) (i : Instr) (bs : List Byte) : State :=
  { s with ports := { rst := false, cmd := [encode i], din := bs } }

end Sys2Proof.Machine
end

