-- ==== Sys2Proof/Safety.lean ====
section
/-! DEFINITION. The terms of the claims: the invariant of the machine between steps, command sequences with their data
(30 R69), the calling protocol (60 R124), and what two runs may be compared on. -/

namespace Sys2Proof.Machine

/-- What holds between steps in every state a run from RESET can reach, whatever the host does. -/
structure State.Inv (s : State) : Prop where
  /-- `BUF` is in canonical form. -/
  bufCanonical : s.eng.buf.wf
  /-- `FCODE != 0` if and only if `FAULT = 1` (10 R28). -/
  faultHasCode : s.eng.fault = true ↔ s.eng.fcode ≠ 0
  /-- `FCODE` 3 is never produced (10 R28, 60 R126). -/
  codeThreeUnused : s.eng.fcode ≠ 3
  /-- Between commands `T` is 80 after a TRANSFORM, and 0 after a wipe or RESET (10 R24). -/
  roundIndexRest : s.eng.t = 0 ∨ s.eng.t = 80
  /-- Between commands `BITLEN` is always 0 (10 R34). -/
  bitLengthRest : s.eng.bitlen = 0
  /-- With `LIVE = 0` every architectural and transient element is zero (10 R29, 70 R137). -/
  voidIsWiped : s.eng.live = false →
    s.eng = { Engine.reset with
      digest := s.eng.digest, dvalid := s.eng.dvalid, fault := s.eng.fault, fcode := s.eng.fcode }
  /-- `DIGEST` is zero until a FINAL has written it (10 R26, R40). -/
  digestBlank : s.eng.dvalid = false → s.eng.digest = Engine.reset.digest
  /-- Only an UPDATE in LIVE is ever waiting for data (30 R58, 41 R86). -/
  waitingIsLive : s.remaining ≠ 0 → s.eng.live = true ∧ s.eng.fault = false
  /-- An UPDATE waits for at most `LEN` bytes (30 R61). -/
  waitingBound : s.remaining ≤ maxLen

/-- A command with the data bytes the host supplies for it (30 R69). -/
structure Command where
  instr : Instr
  data : List Byte
deriving DecidableEq, Repr

/-- The command fits one word, and the host supplies exactly its data bytes (70 R142). -/
def Command.supplied (c : Command) : Bool := c.instr.wellFormed && c.data.length == operandLen c.instr

/-- `INIT`, `UPDATE bs` and `FINAL` (30 R69). -/
def Command.ofInit : Command where
  instr := .init
  data := []
def Command.ofUpdate (bs : List Byte) : Command where
  instr := .update bs.length
  data := bs
def Command.ofFinal : Command where
  instr := .final
  data := []

/-- The host issues the commands one after the other, each with its data, each when the one before has been executed;
the run stops where a step stops. -/
def runCommands : List Command → State → Host.Outcome State Fault Refusal
  | [], s => .next s
  | c :: cs, s =>
    match step (s.offer c.instr c.data) with
    | .next t => runCommands cs t
    | .fault r => .fault r
    | .refused r => .refused r

/-- `INIT`, one UPDATE for each chunk (30 R70). -/
def openCommands (chunks : List (List Byte)) : List Command := Command.ofInit :: chunks.map Command.ofUpdate

/-- `DIGEST m` with `m` cut into chunks (30 R70): `INIT`, one UPDATE for each chunk, `FINAL`. -/
def digestCommands (chunks : List (List Byte)) : List Command := openCommands chunks ++ [Command.ofFinal]

/-- Every chunk fits one UPDATE (30 R61). -/
def chunksFit (chunks : List (List Byte)) : Prop := ∀ c ∈ chunks, c.length ≤ maxLen

/-- The calling protocol of 60 R124, from a state whose `LIVE` is `live`: `( INIT ( INIT | UPDATE )* FINAL )*` and its
beginnings. -/
def lawful : Bool → List Instr → Bool
  | _, [] => true
  | _, .init :: is => lawful true is
  | live, .update _ :: is => live && lawful true is
  | live, .final :: is => live && lawful false is

/-- Two engines agree on everything that decides what happens next but for the data: `COUNT`, the flags, `T` and
`BITLEN` (00 R7, 41 R79). -/
structure Engine.SameControl (x y : Engine) : Prop where
  count : x.count = y.count
  live : x.live = y.live
  dvalid : x.dvalid = y.dvalid
  fault : x.fault = y.fault
  fcode : x.fcode = y.fcode
  t : x.t = y.t
  bitlen : x.bitlen = y.bitlen

/-- Two machines agree on control: the engines do, and the host presents the same commands, the same reset and as many
data bytes. -/
structure State.SameControl (x y : State) : Prop where
  eng : x.eng.SameControl y.eng
  remaining : x.remaining = y.remaining
  rst : x.ports.rst = y.ports.rst
  cmd : x.ports.cmd = y.ports.cmd
  dinLength : x.ports.din.length = y.ports.din.length
  sample : x.sample = y.sample

/-- Two outcomes agree on control: both go on, in states that agree, or both stop for the same reason. -/
def sameControlOutcome : Host.Outcome State Fault Refusal → Host.Outcome State Fault Refusal → Prop
  | .next x, .next y => x.SameControl y
  | .fault x, .fault y => x = y
  | .refused x, .refused y => x = y
  | _, _ => False

end Sys2Proof.Machine
end

