-- ==== Sys2Proof/Certificates/Slice0/Obligations.lean ====
section
/-! DEFINITION. The statements for the provers, in the order of the spec's files. Each docstring names the rules. -/

open Sys2Proof Sys2Proof.Machine

/-! ### Arithmetic (00_scope) -/

/-- 00 R11: the value of a rotation, and where each bit goes; the rule's corner cases. -/
def Obligations.RotationMovesEveryBit : Prop :=
  (∀ (x : Word) (n : Nat), 0 < n → n < 32 →
    (rotl x n).toNat = x.toNat * 2 ^ n % 2 ^ 32 + x.toNat / 2 ^ (32 - n) ∧
    (∀ i, i < 32 → (rotl x n).getLsbD ((i + n) % 32) = x.getLsbD i) ∧
    rotl 0xFFFFFFFF n = 0xFFFFFFFF ∧ rotl 0 n = 0) ∧
  rotl 0x80000000 1 = 0x00000001 ∧ rotl 0x00000001 30 = 0x40000000 ∧
  ∀ x : Word, rotl x 30 = x.rotateRight 2

/-- 00 R14: the bit length is `(COUNT * 8) mod 2^64`, the top three bits of `COUNT` lost; the rule's corner cases. -/
def Obligations.BitLengthDropsTheTopBits : Prop :=
  (∀ c : BitVec 64, (bitLength c).toNat = c.toNat * 8 % 2 ^ 64 ∧ bitLength c = c.extractLsb' 0 61 ++ (0 : BitVec 3)) ∧
  bitLength (BitVec.ofNat 64 (2 ^ 61)) = 0 ∧ bitLength (BitVec.ofNat 64 (2 ^ 61 + 3)) = 24 ∧
  bitLength (BitVec.ofNat 64 (2 ^ 64 - 1)) = BitVec.ofNat 64 (2 ^ 64 - 8)

/-! ### The command word (30_encoding) -/

/-- 30 R59, R60, R65: decoding the word of a command that fits one word gives the command back, at every `LEN`. -/
def Obligations.DecodeInvertsEncode : Prop :=
  ∀ i : Instr, i.wellFormed = true → decode (encode i) = .instr i

/-- 30 R59, R60, R65: a word that decodes to a command is that command's word, and the command fits one word. -/
def Obligations.DecodedCommandsAreTheirWords : Prop :=
  ∀ (w : Word) (i : Instr), decode w = .instr i → i.wellFormed = true ∧ encode i = w

/-- The spec's own inference 30 R65 (from R59, R60, R68): what each word decodes to, by its fields. -/
def Obligations.DecodingFollowsTheFields : Prop :=
  ∀ w : Word,
    (w.extractLsb' 24 8 = 0x01 → w.extractLsb' 0 24 = 0 → decode w = .instr .init) ∧
    (w.extractLsb' 24 8 = 0x02 → decode w = .instr (.update (w.extractLsb' 0 24).toNat)) ∧
    (w.extractLsb' 24 8 = 0x03 → w.extractLsb' 0 24 = 0 → decode w = .instr .final) ∧
    (¬(w.extractLsb' 24 8 = 0x01 ∧ w.extractLsb' 0 24 = 0) → w.extractLsb' 24 8 ≠ 0x02 →
      ¬(w.extractLsb' 24 8 = 0x03 ∧ w.extractLsb' 0 24 = 0) → ∃ why, decode w = .reserved why)

/-- 30 R60: a word decodes to a command exactly when it lies in that command's match and mask. -/
def Obligations.TableRowsMatchDecoding : Prop :=
  ∀ w : Word,
    (w &&& 0xFFFFFFFF = 0x01000000 ↔ decode w = .instr .init) ∧
    (w &&& 0xFF000000 = 0x02000000 ↔ ∃ len, decode w = .instr (.update len)) ∧
    (w &&& 0xFFFFFFFF = 0x03000000 ↔ decode w = .instr .final)

/-- 95 V11: some words of the decoding table, written out from the encoding of 30 R59 and R60. -/
def Obligations.TabulatedWordsDecode : Prop :=
  decode 0x01000000 = .instr .init ∧ decode 0x02000000 = .instr (.update 0) ∧
  decode 0x02000003 = .instr (.update 3) ∧ decode 0x02FFFFFF = .instr (.update 16777215) ∧
  decode 0x03000000 = .instr .final ∧ decode 0x00000000 = .reserved (.unassignedOp 0x00) ∧
  decode 0x01000001 = .reserved (.nonzeroLen 0x01 1) ∧ decode 0x03000014 = .reserved (.nonzeroLen 0x03 20) ∧
  decode 0x04000000 = .reserved (.unassignedOp 0x04) ∧ decode 0xFFFFFFFF = .reserved (.unassignedOp 0xFF)

/-! ### Accepting a command, and the ports (30_encoding) -/

/-- 30 R58, R66: when the engine is ready and the presented word decodes to a command, the step is that command, executed
with the word taken from the command channel; RESET comes before it (60 R129). -/
def Obligations.StepRunsTheDecodedCommand : Prop :=
  ∀ (s : State) (w : Word) (ws : List Word) (i : Instr),
    s.ports.rst = false → cmdReady s = true → s.ports.cmd = w :: ws → decode w = .instr i →
    step s = exec i { s with ports := { s.ports with cmd := ws } }

/-- The MODEL's choice (log entry 8): the word the host's tools place is the next one executed, unless the engine is
halted (10 R23). -/
def Obligations.PlacedWordIsExecuted : Prop :=
  ∀ (s : State) (w : Nat) (i : Instr), s.eng.fault = false → decodeTableWord 32 w = some i → w < 2 ^ 32 →
    step (s.withFetchWord 32 w) = exec i { s with remaining := 0, ports := { s.ports with rst := false } }

/-- The MODEL's choice (log entry 7): an idle engine with no word presented waits, and nothing changes. -/
def Obligations.IdleEngineWaits : Prop :=
  ∀ s : State, s.ports.rst = false → cmdReady s = true → s.ports.cmd = [] → step s = .next s

/-- 30 R58, R62, 20 R54: a step takes at most one word and only when `cmd_ready = 1`; it takes data bytes in stream order,
and only for an UPDATE that is executing or starts in LIVE; RESET takes neither (70 R136). -/
def Obligations.PortsAcceptOnlyWhenReady : Prop :=
  ∀ s t : State, step s = .next t →
    (t.ports.cmd = s.ports.cmd ∨ (s.ports.rst = false ∧ cmdReady s = true ∧ ∃ w, s.ports.cmd = w :: t.ports.cmd)) ∧
    (∃ n, t.ports.din = s.ports.din.drop n) ∧
    (t.ports.din ≠ s.ports.din → s.ports.rst = false ∧
      (dinReady s = true ∨
        (cmdReady s = true ∧ s.eng.live = true ∧ ∃ len, s.ports.cmd = encode (.update len) :: t.ports.cmd)))

/-- 30 R63: the digest port, byte by byte, and after a FINAL as the concatenation of the five chaining words it
serialised: those its last TRANSFORM left (44 R108 steps 4 and 5). -/
def Obligations.DigestPortLayout : Prop :=
  (∀ s : State, portsSpecified s = true → ∀ j : Fin 20,
    (digestPort s).extractLsb' (152 - 8 * j.val) 8 = s.eng.digest[j]) ∧
  ∀ (s t : State), cmdReady s = true → s.eng.live = true → exec .final s = .next t →
    let h := s.eng.padded.transform.h
    digestPort t = h[0] ++ h[1] ++ h[2] ++ h[3] ++ h[4]

/-- 30 R64: the fields of the status port. -/
def Obligations.StatusPortLayout : Prop :=
  ∀ s : State, portsSpecified s = true →
    (statusPort s).getLsbD 0 = s.eng.live ∧ (statusPort s).getLsbD 1 = s.eng.dvalid ∧
    (statusPort s).getLsbD 2 = s.eng.fault ∧ (statusPort s).extractLsb' 3 2 = s.eng.fcode ∧
    (statusPort s).extractLsb' 5 3 = 0

/-! ### The buffer (20_memory) -/

/-- 20 R48, R49: MemRead is the big-endian sum of the bytes; MemWrite stores the bytes of the value and nothing else; and
the one reads back what the other wrote. -/
def Obligations.BufferReadsAndWrites : Prop :=
  ∀ (m : Memory) (k : Offset) (n v : Nat), k.toNat + n ≤ 64 →
    m.memRead k n = ((List.range n).map fun j => (m.read (k + BitVec.ofNat 6 j)).toNat * 2 ^ (8 * (n - 1 - j))).sum ∧
    (∀ o : Offset, (m.memWrite k n v).read o =
      if k.toNat ≤ o.toNat ∧ o.toNat < k.toNat + n then BitVec.ofNat 8 (v / 2 ^ (8 * (n - 1 - (o.toNat - k.toNat))))
      else m.read o) ∧
    (m.memWrite k n v).memRead k n = v % 2 ^ (8 * n)

/-- 20 R44, R47, 42 R88: word `i` of the loaded block is its four bytes, big-endian; byte `k` of it occupies bits
`31-8k : 24-8k`. -/
def Obligations.BlockWordsAliasTheBufferBytes : Prop :=
  ∀ (m : Memory) (h : Vector Word 5) (i : Fin 16),
    (loadBlock m h).win[i].toNat =
      (m.read (BitVec.ofNat 6 (4 * i.val))).toNat * 2 ^ 24 + (m.read (BitVec.ofNat 6 (4 * i.val + 1))).toNat * 2 ^ 16 +
      (m.read (BitVec.ofNat 6 (4 * i.val + 2))).toNat * 2 ^ 8 + (m.read (BitVec.ofNat 6 (4 * i.val + 3))).toNat ∧
    (loadBlock m h).win[i] = blockWord m.block i.val ∧
    ∀ k : Fin 4, (loadBlock m h).win[i].extractLsb' (24 - 8 * k.val) 8 = m.read (BitVec.ofNat 6 (4 * i.val + k.val))

/-! ### INIT (40_init) -/

/-- 40 R72: INIT writes `H`, `COUNT` and `LIVE` and nothing else, in VOID and in LIVE, with the rule's worked example;
in HALTED it is not accepted. -/
def Obligations.InitStartsAComputation : Prop :=
  (∀ s : State,
    (cmdReady s = true → exec .init s = .next { s with eng := { s.eng with
      h := #v[0x67452301, 0xEFCDAB89, 0x98BADCFE, 0x10325476, 0xC3D2E1F0], count := 0, live := true } }) ∧
    (s.eng.fault = true → cmdReady s = false)) ∧
  decode 0x01000000 = .instr .init ∧
  ∃ t, exec .init State.reset = .next t ∧ statusPort t = 0x01 ∧ digestPort t = 0 ∧ t.eng.buf = State.reset.eng.buf

/-- The spec's own inference 40 R74: two INITs have the effect of one, and INIT with FINAL gives the digest of the empty
stream. -/
def Obligations.InitTwiceAndEmptyStream : Prop :=
  ∀ s : State, cmdReady s = true →
    (∃ t u, runCommands [.ofInit, .ofInit] s = .next t ∧ runCommands [.ofInit] s = .next u ∧ t.eng = u.eng) ∧
    ∃ t, runCommands [.ofInit, .ofFinal] s = .next t ∧
      t.eng.digest = #v[0xda, 0x39, 0xa3, 0xee, 0x5e, 0x6b, 0x4b, 0x0d, 0x32, 0x55, 0xbf, 0xef, 0x95, 0x60, 0x18, 0x90,
        0xaf, 0xd8, 0x07, 0x09]

/-- The spec's own inference 40 R75: after INIT, every later result up to the next FINAL's digest is the same whatever the
state before INIT. -/
def Obligations.RestartForgetsThePast : Prop :=
  ∀ (s s' : State) (chunks : List (List Byte)), cmdReady s = true → cmdReady s' = true → chunksFit chunks →
    ∃ t t' u u',
      runCommands (openCommands chunks) s = .next t ∧ runCommands (openCommands chunks) s' = .next t' ∧
      t.eng.h = t'.eng.h ∧ t.eng.count = t'.eng.count ∧
      (∀ k : Offset, k.toNat < (pendingOffset t.eng.count).toNat → t.eng.buf.read k = t'.eng.buf.read k) ∧
      runCommands (digestCommands chunks) s = .next u ∧ runCommands (digestCommands chunks) s' = .next u' ∧
      u.eng.digest = u'.eng.digest ∧ u.eng.dvalid = true ∧ u'.eng.dvalid = true

/-! ### UPDATE (41_update) -/

/-- 41 R77: with its data supplied, UPDATE in LIVE has the effect of the source's chunked pseudocode and
completes; in VOID it raises `ProtocolFault` before any byte is accepted. `DIGEST`, `BITLEN` and
the flags are not written. -/
def Obligations.UpdateIsTheChunkedPseudocode : Prop :=
  (∀ (s : State) (len : Nat), cmdReady s = true →
    (s.eng.live = true → len ≤ s.ports.din.length →
      exec (.update len) s = .next { s with
        eng := s.eng.updateChunked (s.ports.din.take len), ports := { s.ports with din := s.ports.din.drop len } }) ∧
    (s.eng.live = false → exec (.update len) s = .next { s with eng := { s.eng with fault := true, fcode := 2 } })) ∧
  ∀ (e : Engine) (d : List Byte),
    (e.updateChunked d).digest = e.digest ∧ (e.updateChunked d).bitlen = e.bitlen ∧ (e.updateChunked d).live = e.live ∧
    (e.updateChunked d).dvalid = e.dvalid ∧ (e.updateChunked d).fault = e.fault ∧ (e.updateChunked d).fcode = e.fcode

/-- The frame of UPDATE in LIVE, complete or waiting: the registers, flags and buffer bytes it leaves alone. The bytes
stored go to `COUNT mod 64`, `COUNT mod 64 + 1`, ... modulo 64, one for each byte accepted (20 R50); if the block does not
fill, no TRANSFORM occurs (41 R77 step 4). That a waiting UPDATE has taken every presented byte in the one step is the
MODEL's choice (log entry 2). -/
def Obligations.UpdateFrame : Prop :=
  ∀ (s t : State) (len : Nat), s.eng.live = true → exec (.update len) s = .next t →
    t.eng.digest = s.eng.digest ∧ t.eng.dvalid = s.eng.dvalid ∧ t.eng.live = s.eng.live ∧ t.eng.fault = s.eng.fault ∧
    t.eng.fcode = s.eng.fcode ∧ t.eng.bitlen = s.eng.bitlen ∧
    t.ports.rst = s.ports.rst ∧ t.ports.cmd = s.ports.cmd ∧ t.ports.din = s.ports.din.drop len ∧
    (∀ o : Offset, (∀ k, k < min len s.ports.din.length → o ≠ pendingOffset s.eng.count + BitVec.ofNat 6 k) →
      t.eng.buf.read o = s.eng.buf.read o) ∧
    ((pendingOffset s.eng.count).toNat + min len s.ports.din.length ≤ 63 →
      t.eng.h = s.eng.h ∧ t.eng.v = s.eng.v ∧ t.eng.win = s.eng.win ∧ t.eng.t = s.eng.t)

/-- The spec's own inference 41 R78: UPDATE with `LEN = 0` changes no state in LIVE, and faults in VOID. -/
def Obligations.ZeroLengthUpdate : Prop :=
  ∀ s : State, cmdReady s = true →
    (s.eng.live = true → exec (.update 0) s = .next s) ∧
    (s.eng.live = false → exec (.update 0) s = .next { s with eng := { s.eng with fault := true, fcode := 2 } })

/-- 00 R13: UPDATE advances `COUNT` by `LEN` modulo 2^64, silently: no flag, fault or saturation whatever the count. -/
def Obligations.UpdateCountsItsBytes : Prop :=
  ∀ (s : State) (len : Nat), cmdReady s = true → s.eng.live = true → len ≤ s.ports.din.length →
    ∃ t, exec (.update len) s = .next t ∧ cmdReady t = true ∧
      t.eng.count.toNat = (s.eng.count.toNat + len) % 2 ^ 64 ∧
      t.eng.live = s.eng.live ∧ t.eng.dvalid = s.eng.dvalid ∧ t.eng.fault = false ∧ t.eng.fcode = s.eng.fcode

/-- The spec's own inference 41 R83: UPDATE is ABSORB of each of its bytes, on every element of the engine. -/
def Obligations.ChunkedIsByteSerial : Prop :=
  ∀ (e : Engine) (d : List Byte), e.updateChunked d = e.absorbAll d

/-- The spec's own inference 41 R84: the state after a sequence of UPDATEs depends only on the concatenation of their data. -/
def Obligations.SplittingTheStreamChangesNothing : Prop :=
  ∀ (s : State) (cs ds : List (List Byte)), cmdReady s = true → s.eng.live = true → chunksFit cs → chunksFit ds →
    cs.flatten = ds.flatten →
    ∃ t u, runCommands (cs.map .ofUpdate) s = .next t ∧ runCommands (ds.map .ofUpdate) s = .next u ∧ t.eng = u.eng

/-- 10 R20, R31, R37, 41 R80: after INIT and UPDATEs with the stream `m`, `H` is the chain over the whole blocks of `m`,
`COUNT` is its length, and the first `COUNT mod 64` bytes of `BUF` are the rest of it. -/
def Obligations.OpenStreamState : Prop :=
  ∀ (s : State) (chunks : List (List Byte)), cmdReady s = true → chunksFit chunks →
    ∃ t, runCommands (openCommands chunks) s = .next t ∧ cmdReady t = true ∧ t.eng.live = true ∧
      t.eng.h = chain iv (wholeBlocks chunks.flatten) ∧
      t.eng.count = BitVec.ofNat 64 chunks.flatten.length ∧
      t.eng.buf.bytes 0 (chunks.flatten.length % 64) = chunks.flatten.drop (64 * (chunks.flatten.length / 64)) ∧
      t.eng.digest = s.eng.digest ∧ t.eng.dvalid = s.eng.dvalid

/-- 41 R86, 93 U8: an UPDATE whose data is short absorbs what is there and stays executing, `cmd_ready = 0`. That one step
takes all the bytes presented, and that `din_ready` is then 1, are the MODEL's choices (log entries 2 and 5). -/
def Obligations.ShortSupplyWaits : Prop :=
  ∀ (s : State) (len : Nat), cmdReady s = true → s.eng.live = true → s.ports.din.length < len →
    ∃ t, exec (.update len) s = .next t ∧ t.eng = s.eng.absorbAll s.ports.din ∧
      t.remaining = len - s.ports.din.length ∧ t.ports = { s.ports with din := [] } ∧
      cmdReady t = false ∧ dinReady t = true

/-- 41 R86, 70 R142: an UPDATE that waits and is then given the rest of its data ends as if all had been there at once;
the bytes beyond `LEN` wait. The grain of the wait is the MODEL's choice (log entry 2). -/
def Obligations.WaitingUpdateResumes : Prop :=
  ∀ (s : State) (len : Nat) (q : List Byte), s.ports.rst = false → cmdReady s = true → s.eng.live = true →
    s.ports.din.length < len → len ≤ s.ports.din.length + q.length →
    ∃ t u v, exec (.update len) s = .next t ∧ step (t.supply q) = .next u ∧ exec (.update len) (s.supply q) = .next v ∧
      u.eng = v.eng ∧ u.ports = v.ports ∧ cmdReady u = true ∧ cmdReady v = true ∧
      u.ports.din = q.drop (len - s.ports.din.length)

/-- One step of a waiting UPDATE, however many of its missing bytes are presented (41 R82, R86): it absorbs those it still
needs, in order, and writes neither `DIGEST`, `BITLEN` nor a flag; it completes when none is missing. That one step takes
all the bytes presented is the MODEL's choice (log entry 2). -/
def Obligations.WaitingUpdateAbsorbsWhatComes : Prop :=
  ∀ s : State, s.ports.rst = false → s.eng.fault = false → s.remaining ≠ 0 →
    ∃ t, step s = .next t ∧ t.eng = s.eng.absorbAll (s.ports.din.take s.remaining) ∧
      t.remaining = s.remaining - s.ports.din.length ∧
      t.ports = { s.ports with din := s.ports.din.drop s.remaining } ∧
      t.eng.digest = s.eng.digest ∧ t.eng.bitlen = s.eng.bitlen ∧ t.eng.live = s.eng.live ∧
      t.eng.dvalid = s.eng.dvalid ∧ t.eng.fault = false ∧ t.eng.fcode = s.eng.fcode ∧
      (cmdReady t = true ↔ s.remaining ≤ s.ports.din.length)

/-- 00 R7, 41 R79: what happens next is decided by `COUNT`, the flags, the command words and how many bytes are presented,
never by the data: two machines that agree on those go on to states that agree, or stop for the same reason. -/
def Obligations.ControlIsIndependentOfTheData : Prop :=
  ∀ x y : State, x.SameControl y → sameControlOutcome (step x) (step y)

/-! ### TRANSFORM (42_transform_schedule, 43_transform_rounds) -/

/-- 42 R89: the eighty schedule words of a block, which the rounds consume one each, and the rule's two corner cases. -/
def Obligations.ScheduleRecurrence : Prop :=
  (∀ t, t ≤ 79 → (schedule (List.replicate 64 0x00)).getD t 0 = 0) ∧
  (schedule (0x80 :: List.replicate 63 0x00)).getD 16 0 = 0x00000001 ∧
  (∀ (block : List Byte) (t : Nat) (r : Roles),
    rounds (schedule block) (t + 1) r = roundOf t (rounds (schedule block) t r) ((schedule block).getD t 0)) ∧
  ∀ block : List Byte,
    (schedule block).length = 80 ∧
    (∀ t, t ≤ 15 → (schedule block).getD t 0 = blockWord block t) ∧
    ∀ t, 16 ≤ t → t ≤ 79 → (schedule block).getD t 0 =
      rotl ((schedule block).getD (t - 3) 0 ^^^ (schedule block).getD (t - 8) 0 ^^^ (schedule block).getD (t - 14) 0 ^^^
        (schedule block).getD (t - 16) 0) 1

/-- The spec's own inference 42 R91: before round `t` the window holds the last sixteen schedule words (for
`t < 16` the block words not yet used), and after SCHED slot `t mod 16` holds `W_t`. -/
def Obligations.WindowHoldsTheSchedule : Prop :=
  ∀ (m : Memory) (h : Vector Word 5) (t : Nat), t ≤ 79 →
    (Pipeline.runRounds t (loadBlock m h)).t = BitVec.ofNat 7 t ∧
    (∀ i, t - 16 ≤ i → i < t → (Pipeline.runRounds t (loadBlock m h)).winAt i = (schedule m.block).getD i 0) ∧
    (∀ i, t ≤ i → i ≤ 15 → (Pipeline.runRounds t (loadBlock m h)).winAt i = blockWord m.block i) ∧
    (Pipeline.runRounds t (loadBlock m h)).sched.winAt t = (schedule m.block).getD t 0

/-- 43 R99, R94: the function and the constant of each round, at the boundaries 20, 40 and 60. -/
def Obligations.PhaseSelectsFunctionAndConstant : Prop :=
  ∀ t, t ≤ 79 →
    (t ≤ 19 → roundFn t = f0 ∧ roundConst t = 0x5A827999) ∧
    (20 ≤ t → t ≤ 39 → roundFn t = f1 ∧ roundConst t = 0x6ED9EBA1) ∧
    (40 ≤ t → t ≤ 59 → roundFn t = f2 ∧ roundConst t = 0x8F1BBCDC) ∧
    (60 ≤ t → roundFn t = f3 ∧ roundConst t = 0xCA62C1D6)

/-- 43 R95: `f_0` selects; `^` and `|` agree in it; corner cases and example. -/
def Obligations.SelectFunction : Prop :=
  (∀ b c d : Word, f0 b c d = (b &&& c) ^^^ (~~~b &&& d) ∧ f0 b c d = (b &&& c) ||| (~~~b &&& d) ∧
    ∀ i, i < 32 → (f0 b c d).getLsbD i = if b.getLsbD i then c.getLsbD i else d.getLsbD i) ∧
  (∀ c d : Word, f0 0xFFFFFFFF c d = c ∧ f0 0 c d = d) ∧ (∀ b x : Word, f0 b x x = x) ∧
  f0 0xEFCDAB89 0x98BADCFE 0x10325476 = 0x98BADCFE

/-- 43 R96, R98: `f_1` and `f_3` are the parity of the three; corner cases and example. -/
def Obligations.ParityFunctions : Prop :=
  (∀ b c d : Word, f1 b c d = b ^^^ c ^^^ d ∧ f3 b c d = b ^^^ c ^^^ d) ∧
  (∀ x d : Word, f1 x x d = d ∧ f1 x x x = x) ∧ f1 0 0 0 = 0 ∧ f1 0xEFCDAB89 0x98BADCFE 0x10325476 = 0x67452301

/-- 43 R97: `f_2` is the majority of the three; corner cases and example. -/
def Obligations.MajorityFunction : Prop :=
  (∀ b c d : Word, f2 b c d = (b &&& c) ||| (b &&& d) ||| (c &&& d) ∧
    ∀ i, i < 32 → (f2 b c d).getLsbD i =
      decide (2 ≤ (b.getLsbD i).toNat + (c.getLsbD i).toNat + (d.getLsbD i).toNat)) ∧
  (∀ x d : Word, f2 x x d = x) ∧ (∀ c d : Word, f2 0 c d = c &&& d ∧ f2 0xFFFFFFFF c d = c ||| d) ∧
  f2 0xEFCDAB89 0x98BADCFE 0x10325476 = 0x98BADCFE

/-- The spec's own inference 43 R102: the round step with rotating indices and the round on role values are the
same computation. -/
def Obligations.RotatingIndicesEqualShuffling : Prop :=
  ∀ (p : Pipeline) (t : Nat), p.t.toNat = t → t ≤ 79 →
    p.round.rolesAt (t + 1) = roundOf t (p.rolesAt t) (p.winAt t)

/-- 43 R106 and the spec's own inference R105: TRANSFORM is `H <- compress(H, BUF)`, and of the
architectural state it writes nothing else. -/
def Obligations.TransformIsCompress : Prop :=
  ∀ e : Engine,
    e.transform.h = compress e.h e.buf.block ∧
    e.transform = { e with h := e.transform.h, v := e.transform.v, win := e.transform.win, t := e.transform.t }

/-- 10 R21, R24, R35: what TRANSFORM leaves in the transients: the roles after round 79, the last sixteen schedule words,
and `T = 80`. -/
def Obligations.TransformLeavesItsTransients : Prop :=
  ∀ e : Engine,
    rolesOf e.transform.v = rounds (schedule e.buf.block) 80 (rolesOf e.h) ∧
    (∀ i : Fin 16, e.transform.win[i] = (schedule e.buf.block).getD (64 + i.val) 0) ∧ e.transform.t = 80

/-- 43 R104: the add-back, word by word, and what it leaves alone. -/
def Obligations.AddBackAddsTheRoles : Prop :=
  ∀ (e : Engine) (p : Pipeline),
    (∀ i : Fin 5, (e.addBack p).h[i].toNat = (e.h[i].toNat + p.v[i].toNat) % 2 ^ 32) ∧
    e.addBack p = { e with h := (e.addBack p).h, v := p.v, win := p.win, t := p.t }

/-! ### FINAL (44_final) -/

/-- 44 R109, 43 R107: `INIT`, the stream in any chunks, `FINAL`: the digest is the serialised end of the chain over the
padded stream. It needs no bound on the stream: the padding holds the length modulo 2^64 (44 R113). -/
def Obligations.DigestOfTheStream : Prop :=
  ∀ (s : State) (chunks : List (List Byte)), cmdReady s = true → chunksFit chunks →
    ∃ t, runCommands (digestCommands chunks) s = .next t ∧ cmdReady t = true ∧ t.eng.dvalid = true ∧
      t.eng.digest = serialize (chain iv (wholeBlocks (pad chunks.flatten)))

/-- 44 R111 and the spec's own inference R112: step 2 absorbs `(55 - j) mod 64` zero bytes after the 0x80,
and ends with `COUNT mod 64 = 56`. -/
def Obligations.PaddingEndsAtOffset56 : Prop :=
  ∀ e : Engine,
    Engine.padZeros 64 (e.absorb 0x80) =
      e.absorbAll (0x80 :: List.replicate ((55 + 64 - (pendingOffset e.count).toNat) % 64) 0x00) ∧
    pendingOffset (Engine.padZeros 64 (e.absorb 0x80)).count = 56

/-- The spec's own inference 44 R113: the padded stream. -/
def Obligations.PaddedStreamShape : Prop :=
  ∀ m : List Byte,
    (∃ z, z < 64 ∧ (m.length + z) % 64 = 55 ∧
      pad m = m ++ [0x80] ++ List.replicate z 0x00 ++ beBytes 8 (8 * m.length % 2 ^ 64)) ∧
    (pad m).length % 64 = 0 ∧ m.length + 9 ≤ (pad m).length ∧ (pad m).length < m.length + 9 + 64

/-- 44 R117: the digest bytes are the chaining words, each most-significant byte first, and `DVALID` goes with them. -/
def Obligations.SerialisedDigestBytes : Prop :=
  ∀ e : Engine,
    (∀ (i : Fin 5) (k : Fin 4),
      e.emitDigest.digest.toList.getD (4 * i.val + k.val) 0 = e.h[i].extractLsb' (24 - 8 * k.val) 8) ∧
    e.emitDigest.dvalid = true

/-- The spec's own inference 44 R119: FINAL as a function of the state at its start; `FAULT` and `FCODE` keep their values and
every other element but `DIGEST` and `DVALID` is zero. -/
def Obligations.FinalAsAFunction : Prop :=
  ∀ s : State, cmdReady s = true → s.eng.live = true →
    exec .final s = .next { s with eng := { Engine.reset with
      digest := serialize s.eng.lastChaining, dvalid := true, fault := s.eng.fault, fcode := s.eng.fcode } } ∧
    s.eng.lastBytes.length = (if (pendingOffset s.eng.count).toNat ≤ 55 then 64 else 128)

/-- 44 R118: the wipe, and the machine after a FINAL: all zero but the digest, its flag and the fault fields. -/
def Obligations.FinalWipesTheState : Prop :=
  (∀ e : Engine, e.wipe =
    { Engine.reset with digest := e.digest, dvalid := e.dvalid, fault := e.fault, fcode := e.fcode }) ∧
  ∀ s : State, cmdReady s = true → s.eng.live = true →
    ∃ t, exec .final s = .next t ∧
      (∀ i : Fin 5, t.eng.h[i] = 0 ∧ t.eng.v[i] = 0) ∧ (∀ i : Fin 16, t.eng.win[i] = 0) ∧
      (∀ k : Offset, t.eng.buf.read k = 0) ∧ t.eng.count = 0 ∧ t.eng.t = 0 ∧ t.eng.bitlen = 0 ∧
      t.eng.live = false ∧ t.eng.fault = s.eng.fault ∧ t.eng.fcode = s.eng.fcode

/-- 44 R121: after a FINAL, a FINAL or UPDATE without an INIT raises `ProtocolFault`, and the first digest stays. -/
def Obligations.FinalTwiceFaults : Prop :=
  ∀ s t : State, s.eng.live = true → exec .final s = .next t →
    t.eng.live = false ∧
    exec .final t = .next { t with eng := { t.eng with fault := true, fcode := 2 } } ∧
    ∀ len, exec (.update len) t = .next { t with eng := { t.eng with fault := true, fcode := 2 } }

/-! ### Faults (60_exceptions) -/

/-- 60 R123, R124, on runs in which the host supplies each UPDATE's data with its word (70 R142): a command sequence that
keeps the calling protocol never faults, whatever the data. Late data is in `ShortSupplyWaits` and
`WaitingUpdateAbsorbsWhatComes`. -/
def Obligations.LawfulCommandsNeverFault : Prop :=
  ∀ (s : State) (cs : List Command), cmdReady s = true → (∀ c ∈ cs, c.supplied = true) →
    lawful s.eng.live (cs.map Command.instr) = true →
    ∃ t, runCommands cs s = .next t ∧ t.eng.fault = false ∧ cmdReady t = true

/-- 60 R127: an accepted word that decodes to Reserved raises `ReservedCommand`, in VOID and in LIVE. -/
def Obligations.ReservedWordFaults : Prop :=
  ∀ (s : State) (w : Word) (ws : List Word) (why : ReservedWord),
    s.ports.rst = false → cmdReady s = true → s.ports.cmd = w :: ws → decode w = .reserved why →
    step s = .next { s with eng := { s.eng with fault := true, fcode := 1 }, ports := { s.ports with cmd := ws } }

/-- 60 R128: UPDATE of any length and FINAL raise `ProtocolFault` when `LIVE = 0`; no data byte is accepted. -/
def Obligations.ProtocolFaultWithoutInit : Prop :=
  ∀ s : State, cmdReady s = true → s.eng.live = false →
    (∀ len, exec (.update len) s = .next { s with eng := { s.eng with fault := true, fcode := 2 } }) ∧
    exec .final s = .next { s with eng := { s.eng with fault := true, fcode := 2 } }

/-- 60 R130: whichever step takes a fault changes `FAULT` and `FCODE` and no other element; the faulting command is
discarded and no data byte accepted. -/
def Obligations.FaultEntryIsPrecise : Prop :=
  ∀ s t : State, step s = .next t → s.eng.fault = false → t.eng.fault = true →
    (t.eng.fcode = 1 ∨ t.eng.fcode = 2) ∧
    t.eng = { s.eng with fault := true, fcode := t.eng.fcode } ∧
    t.ports.din = s.ports.din ∧ t.remaining = 0 ∧ ∃ w, s.ports.cmd = w :: t.ports.cmd

/-- 60 R131: HALTED accepts nothing, changes nothing without RESET, and leaves its ports readable. That the model's step and
meanings stop there by name follows the rule's "treats a state with `FAULT = 1` as faulted" (log entry 9). -/
def Obligations.HaltedAcceptsNothing : Prop :=
  ∀ s : State, s.eng.fault = true →
    cmdReady s = false ∧ dinReady s = false ∧ statusPort s = statusByte s.eng ∧ digestPort s = digestWord s.eng ∧
    (s.ports.rst = false → step s = .fault (.halted s.eng.fcode)) ∧ ∀ i, exec i s = .fault (.halted s.eng.fcode)

/-- 10 R29: the transitions between VOID, LIVE and HALTED, and no others. -/
def Obligations.LifecycleTransitions : Prop :=
  ∀ s t : State, step s = .next t →
    (s.ports.rst = true → condition t.eng = .void) ∧
    (s.ports.rst = false →
      condition s.eng ≠ .halted ∧
      (s.remaining ≠ 0 ∨ s.ports.cmd = [] → condition t.eng = condition s.eng) ∧
      ∀ w ws, s.remaining = 0 → s.ports.cmd = w :: ws →
        (decode w = .instr .init → condition t.eng = .live) ∧
        (∀ len, decode w = .instr (.update len) →
          (condition s.eng = .live → condition t.eng = .live) ∧
          (condition s.eng = .void → condition t.eng = .halted ∧ t.eng.fcode = 2)) ∧
        (decode w = .instr .final →
          (condition s.eng = .live → condition t.eng = .void ∧ t.eng.dvalid = true) ∧
          (condition s.eng = .void → condition t.eng = .halted ∧ t.eng.fcode = 2)) ∧
        (∀ why, decode w = .reserved why → condition t.eng = .halted ∧ t.eng.fcode = 1))

/-- 10 R26, R33, 44 R122: `DIGEST` and `DVALID` are written by RESET and by a step that accepts FINAL's word in LIVE, and
by nothing else. -/
def Obligations.OnlyFinalAndResetWriteTheDigest : Prop :=
  ∀ s t : State, step s = .next t →
    (s.ports.rst = true ∧ t.eng.dvalid = false ∧ t.eng.digest = Engine.reset.digest) ∨
    (s.ports.rst = false ∧ cmdReady s = true ∧ s.eng.live = true ∧ s.ports.cmd = encode .final :: t.ports.cmd ∧
      t.eng.dvalid = true) ∨
    (t.eng.digest = s.eng.digest ∧ t.eng.dvalid = s.eng.dvalid)

/-! ### Reset and the whole machine (10_state, 70_reset_and_hazards) -/

/-- 70 R136: an asserted `rst` zeroes every element whatever the machine was doing, abandons a command being executed and
accepts no presented word or byte; nothing else leads out of HALTED or clears `DVALID`. -/
def Obligations.ResetZeroesEverything : Prop :=
  (∀ s : State, s.ports.rst = true →
    ∃ t, step s = .next t ∧
      (∀ i : Fin 5, t.eng.h[i] = 0 ∧ t.eng.v[i] = 0) ∧ (∀ i : Fin 16, t.eng.win[i] = 0) ∧
      (∀ i : Fin 20, t.eng.digest[i] = 0) ∧ (∀ k : Offset, t.eng.buf.read k = 0) ∧
      t.eng.count = 0 ∧ t.eng.t = 0 ∧ t.eng.bitlen = 0 ∧
      t.eng.live = false ∧ t.eng.dvalid = false ∧ t.eng.fault = false ∧ t.eng.fcode = 0 ∧
      t.ports.cmd = s.ports.cmd ∧ t.ports.din = s.ports.din ∧
      cmdReady t = true ∧ dinReady t = false ∧ condition t.eng = .void ∧ statusPort t = 0 ∧ digestPort t = 0) ∧
  ∀ s t : State, step s = .next t → (s.eng.fault = true ∨ (s.eng.dvalid = true ∧ t.eng.dvalid = false)) →
    s.ports.rst = true

/-- 10 R24, R28, R29, R34, 30 R58: the invariant of the machine between steps holds after RESET. -/
def Obligations.InvariantAfterReset : Prop := State.reset.Inv

/-- 10 R24, R28, R29, R34, 30 R58: every step from a state that meets the invariant leads to one that meets it. -/
def Obligations.StepKeepsTheInvariant : Prop :=
  ∀ s t : State, s.Inv → step s = .next t → t.Inv
end

