-- ==== Sys2Proof/Laws/Memory.lean ====
section
/-! SUPPORT. The buffer: a read after a write, what a write leaves alone, and that every operation keeps the canonical
form. No lemma needs the canonical form to read back what was written. -/

namespace Sys2Proof.Machine

@[simp] theorem Memory.read_nil (k : Offset) : Memory.read [] k = Memory.unlisted := rfl

theorem Memory.read_cons (c : Host.Cell) (m : Memory) (k : Offset) :
    Memory.read (c :: m) k = if c.1 = k.toNat then c.2 else Memory.read m k := rfl

theorem Memory.read_unlist_self (m : Memory) (k : Offset) : (m.unlist k).read k = Memory.unlisted := by
  induction m with
  | nil => rfl
  | cons c m ih =>
    by_cases h : c.1 = k.toNat
    · simpa [Memory.unlist, h] using ih
    · have : Memory.unlist (c :: m) k = c :: Memory.unlist m k := by simp [Memory.unlist, h]
      rw [this, Memory.read_cons, if_neg h, ih]

theorem Memory.read_unlist_ne (m : Memory) {k o : Offset} (ho : o ≠ k) : (m.unlist k).read o = m.read o := by
  induction m with
  | nil => rfl
  | cons c m ih =>
    by_cases h : c.1 = k.toNat
    · have hne : c.1 ≠ o.toNat := fun h' => ho (BitVec.eq_of_toNat_eq (h'.symm.trans h))
      have : Memory.unlist (c :: m) k = Memory.unlist m k := by simp [Memory.unlist, h]
      rw [this, ih, Memory.read_cons, if_neg hne]
    · have : Memory.unlist (c :: m) k = c :: Memory.unlist m k := by simp [Memory.unlist, h]
      rw [this, Memory.read_cons, Memory.read_cons, ih]

theorem Memory.read_enlist_ne (m : Memory) {k o : Offset} (x : Byte) (ho : o ≠ k) :
    (m.enlist k x).read o = m.read o := by
  have hne : k.toNat ≠ o.toNat := fun h => ho (BitVec.eq_of_toNat_eq h.symm)
  induction m with
  | nil => simp [Memory.enlist, Memory.read_cons, hne]
  | cons c m ih =>
    unfold Memory.enlist
    split
    · rw [Memory.read_cons, if_neg hne]
    · rw [Memory.read_cons, Memory.read_cons, ih]

theorem Memory.read_enlist_self (m : Memory) (k : Offset) (x : Byte) (h : ∀ c ∈ m, c.1 ≠ k.toNat) :
    (m.enlist k x).read k = x := by
  induction m with
  | nil => simp [Memory.enlist, Memory.read_cons]
  | cons c m ih =>
    unfold Memory.enlist
    split
    · simp [Memory.read_cons]
    · rw [Memory.read_cons, if_neg (h c (by simp)), ih fun c' hc' => h c' (by simp [hc'])]

theorem Memory.unlist_ne {m : Memory} {k : Offset} {c : Host.Cell} (h : c ∈ m.unlist k) : c.1 ≠ k.toNat := by
  simpa using (List.mem_filter.1 h).2

/-- A read after a write to the same offset gives the byte written. -/
theorem Memory.read_write_self (m : Memory) (k : Offset) (x : Byte) : (m.write k x).read k = x := by
  unfold Memory.write
  split
  · next h => rw [Memory.read_unlist_self, h]
  · exact Memory.read_enlist_self _ _ _ fun _ hc => Memory.unlist_ne hc

/-- A write leaves every other offset alone. -/
theorem Memory.read_write_ne (m : Memory) {k o : Offset} (x : Byte) (ho : o ≠ k) :
    (m.write k x).read o = m.read o := by
  unfold Memory.write
  split
  · exact Memory.read_unlist_ne m ho
  · rw [Memory.read_enlist_ne _ _ ho, Memory.read_unlist_ne m ho]

/-- Everything a byte write can do, seen by a read (20 R49 with `n = 1`). -/
theorem Memory.read_write (m : Memory) (k o : Offset) (x : Byte) :
    (m.write k x).read o = if o = k then x else m.read o := by
  split
  · next h => rw [h, Memory.read_write_self]
  · next h => exact Memory.read_write_ne m x h

theorem Memory.wf_nil : Memory.wf [] := by simp [Memory.wf]

theorem Memory.wf_unlist {m : Memory} (h : m.wf) (k : Offset) : (m.unlist k).wf := by
  refine ⟨?_, fun c hc => h.2 c (List.mem_of_mem_filter hc)⟩
  exact h.1.sublist ((List.filter_sublist).map Prod.fst)

theorem Memory.mem_enlist {m : Memory} {k : Offset} {x : Byte} {c : Host.Cell} (h : c ∈ m.enlist k x) :
    c = (k.toNat, x) ∨ c ∈ m := by
  induction m with
  | nil => simpa [Memory.enlist] using h
  | cons d m ih =>
    unfold Memory.enlist at h
    split at h
    · simpa using h
    · rcases List.mem_cons.1 h with h | h
      · exact .inr (by simp [h])
      · exact (ih h).imp id fun h => by simp [h]

theorem Memory.wf_enlist {m : Memory} (h : m.wf) {k : Offset} {x : Byte} (hx : x ≠ Memory.unlisted)
    (hk : ∀ c ∈ m, c.1 ≠ k.toNat) : (m.enlist k x).wf := by
  have hk64 : k.toNat < 64 := k.isLt
  refine ⟨?_, fun c hc => ?_⟩
  · induction m with
    | nil => simp [Memory.enlist]
    | cons d m ih =>
      have hm : Memory.wf m := ⟨(List.pairwise_cons.1 h.1).2, fun c hc => h.2 c (by simp [hc])⟩
      have hd := (List.pairwise_cons.1 h.1).1
      unfold Memory.enlist
      split
      · next hlt =>
        refine List.pairwise_cons.2 ⟨fun b hb => ?_, h.1⟩
        rcases List.mem_cons.1 hb with hb | hb
        · exact hb ▸ hlt
        · exact hlt.trans (hd b hb)
      · next hge =>
        have hlt : d.1 < k.toNat := by have := hk d (by simp); omega
        refine List.pairwise_cons.2 ⟨fun b hb => ?_, ih hm fun c hc => hk c (by simp [hc])⟩
        obtain ⟨c, hc, rfl⟩ := List.mem_map.1 hb
        rcases Memory.mem_enlist hc with rfl | hc
        · exact hlt
        · exact hd _ (List.mem_map_of_mem hc)
  · rcases Memory.mem_enlist hc with rfl | hc
    · exact ⟨hk64, hx⟩
    · exact h.2 c hc

/-- A byte write keeps the canonical form. -/
theorem Memory.wf_write {m : Memory} (h : m.wf) (k : Offset) (x : Byte) : (m.write k x).wf := by
  unfold Memory.write
  split
  · exact Memory.wf_unlist h k
  · next hx => exact Memory.wf_enlist (Memory.wf_unlist h k) hx fun _ hc => Memory.unlist_ne hc

/-- Writing a byte string keeps the canonical form. -/
theorem Memory.wf_copyIn {m : Memory} (h : m.wf) (k : Offset) (bs : List Byte) : (m.copyIn k bs).wf := by
  induction bs generalizing m k with
  | nil => exact h
  | cons x bs ih => exact ih (Memory.wf_write h k x) (k + 1)

/-- MemWrite keeps the canonical form. -/
theorem Memory.wf_memWrite {m : Memory} (h : m.wf) (k : Offset) (n v : Nat) : (m.memWrite k n v).wf :=
  Memory.wf_copyIn h k _

theorem Memory.copyIn_append (m : Memory) (k : Offset) (xs ys : List Byte) :
    m.copyIn k (xs ++ ys) = (m.copyIn k xs).copyIn (k + BitVec.ofNat 6 xs.length) ys := by
  induction xs generalizing m k with
  | nil => simp [Memory.copyIn]
  | cons x xs ih =>
    have : k + 1 + BitVec.ofNat 6 xs.length = k + BitVec.ofNat 6 (x :: xs).length := by
      rw [List.length_cons, BitVec.ofNat_add, BitVec.add_assoc, BitVec.add_comm (1 : Offset)]; rfl
    rw [← this]
    exact ih (m.write k x) (k + 1)

@[simp] theorem Memory.bytes_length (m : Memory) (k : Offset) (n : Nat) : (m.bytes k n).length = n := by
  simp [Memory.bytes]

@[simp] theorem Memory.block_length (m : Memory) : m.block.length = 64 := Memory.bytes_length m 0 64

/-- Everything writing a byte string can do, seen by a read (20 R49). -/
theorem Memory.read_copyIn (m : Memory) (k : Offset) (bs : List Byte) (h : k.toNat + bs.length ≤ 64) (o : Offset) :
    (m.copyIn k bs).read o =
      if k.toNat ≤ o.toNat ∧ o.toNat < k.toNat + bs.length then bs.getD (o.toNat - k.toNat) 0 else m.read o := by
  induction bs generalizing m k with
  | nil =>
    rw [Memory.copyIn, if_neg]
    rw [List.length_nil]
    omega
  | cons x bs ih =>
    have hok : o = k ↔ o.toNat = k.toNat := BitVec.toNat_eq
    rw [List.length_cons] at h ⊢
    rw [Memory.copyIn]
    by_cases hb : bs = []
    · subst hb
      simp only [Memory.copyIn, Memory.read_write, List.length_nil] at h ⊢
      by_cases ho : o = k
      · subst ho; simp
      · have := mt hok.2 ho
        rw [if_neg ho, if_neg]; omega
    · have hl : bs.length ≠ 0 := by simpa using hb
      have hk1 : (k + 1).toNat = k.toNat + 1 := by
        have : (1 : Offset).toNat = 1 := rfl
        rw [BitVec.toNat_add, this]; omega
      rw [ih _ _ (by omega), hk1, Memory.read_write]
      by_cases h1 : k.toNat + 1 ≤ o.toNat ∧ o.toNat < k.toNat + 1 + bs.length
      · rw [if_pos h1, if_pos (by omega)]
        obtain ⟨j, hj⟩ : ∃ j, o.toNat = k.toNat + 1 + j := ⟨o.toNat - (k.toNat + 1), by omega⟩
        have e1 : o.toNat - (k.toNat + 1) = j := by omega
        have e2 : o.toNat - k.toNat = j + 1 := by omega
        rw [e1, e2, List.getD_cons_succ]
      · rw [if_neg h1]
        by_cases ho : o = k
        · have := hok.1 ho
          rw [if_pos ho, if_pos (by omega), show o.toNat - k.toNat = 0 by omega]
          rfl
        · have := mt hok.2 ho
          rw [if_neg ho, if_neg (by omega)]

/-- The bytes written read back, in order. -/
theorem Memory.bytes_copyIn (m : Memory) (k : Offset) (bs : List Byte) (h : k.toNat + bs.length ≤ 64) :
    (m.copyIn k bs).bytes k bs.length = bs := by
  apply List.ext_getElem
  · simp
  · intro j h1 h2
    have hkj : (k + BitVec.ofNat 6 j).toNat = k.toNat + j := by
      rw [BitVec.toNat_add, BitVec.toNat_ofNat]; omega
    simp only [Memory.bytes, List.getElem_map, List.getElem_range]
    rw [Memory.read_copyIn _ _ _ h, hkj, if_pos (by omega)]
    simp [h2]

@[simp] theorem beBytes_length (n v : Nat) : (beBytes n v).length = n := by simp [beBytes]

/-- A big-endian value of `n` bytes is below `2^(8n)` (20 R48). -/
theorem beValue_lt (bs : List Byte) : beValue bs < 2 ^ (8 * bs.length) := by
  induction bs with
  | nil => simp [beValue]
  | cons b bs ih =>
    have hb : b.toNat < 2 ^ 8 := b.isLt
    have : (b.toNat + 1) * 2 ^ (8 * bs.length) ≤ 2 ^ 8 * 2 ^ (8 * bs.length) := Nat.mul_le_mul_right _ hb
    have h8 : 2 ^ (8 * (b :: bs).length) = 2 ^ 8 * 2 ^ (8 * bs.length) := by
      rw [← Nat.pow_add, List.length_cons]; congr 1; omega
    simp only [beValue, h8]
    rw [Nat.add_mul] at this
    omega

end Sys2Proof.Machine
end

