-- ==== Sys2Proof/Laws/State.lean ====
section
/-! SUPPORT. One lemma per field per update of the state, each true by definition. -/

namespace Sys2Proof.Machine

section
variable (p : Pipeline) (i : Nat) (w : Word)
@[simp] theorem Pipeline.setWin_v : (p.setWin i w).v = p.v := rfl
@[simp] theorem Pipeline.setWin_t : (p.setWin i w).t = p.t := rfl
end

section
variable (p : Pipeline) (k t : Nat) (w : Word)
@[simp] theorem Pipeline.setRole_win : (p.setRole k t w).win = p.win := rfl
@[simp] theorem Pipeline.setRole_t : (p.setRole k t w).t = p.t := rfl
end

section
variable (p : Pipeline)
@[simp] theorem Pipeline.round_win : p.round.win = p.win := rfl
@[simp] theorem Pipeline.round_t : p.round.t = p.t + 1 := rfl
end

section
variable (e : Engine) (c : CommandFault)
@[simp] theorem Engine.raise_h : (e.raise c).h = e.h := rfl
@[simp] theorem Engine.raise_count : (e.raise c).count = e.count := rfl
@[simp] theorem Engine.raise_buf : (e.raise c).buf = e.buf := rfl
@[simp] theorem Engine.raise_digest : (e.raise c).digest = e.digest := rfl
@[simp] theorem Engine.raise_live : (e.raise c).live = e.live := rfl
@[simp] theorem Engine.raise_dvalid : (e.raise c).dvalid = e.dvalid := rfl
@[simp] theorem Engine.raise_fault : (e.raise c).fault = true := rfl
@[simp] theorem Engine.raise_fcode : (e.raise c).fcode = c.code := rfl
@[simp] theorem Engine.raise_v : (e.raise c).v = e.v := rfl
@[simp] theorem Engine.raise_win : (e.raise c).win = e.win := rfl
@[simp] theorem Engine.raise_t : (e.raise c).t = e.t := rfl
@[simp] theorem Engine.raise_bitlen : (e.raise c).bitlen = e.bitlen := rfl
end

section
variable (e : Engine)
@[simp] theorem Engine.init_h : e.init.h = iv := rfl
@[simp] theorem Engine.init_count : e.init.count = 0 := rfl
@[simp] theorem Engine.init_buf : e.init.buf = e.buf := rfl
@[simp] theorem Engine.init_digest : e.init.digest = e.digest := rfl
@[simp] theorem Engine.init_live : e.init.live = true := rfl
@[simp] theorem Engine.init_dvalid : e.init.dvalid = e.dvalid := rfl
@[simp] theorem Engine.init_fault : e.init.fault = e.fault := rfl
@[simp] theorem Engine.init_fcode : e.init.fcode = e.fcode := rfl
@[simp] theorem Engine.init_v : e.init.v = e.v := rfl
@[simp] theorem Engine.init_win : e.init.win = e.win := rfl
@[simp] theorem Engine.init_t : e.init.t = e.t := rfl
@[simp] theorem Engine.init_bitlen : e.init.bitlen = e.bitlen := rfl
end

section
variable (e : Engine) (p : Pipeline)
@[simp] theorem Engine.addBack_count : (e.addBack p).count = e.count := rfl
@[simp] theorem Engine.addBack_buf : (e.addBack p).buf = e.buf := rfl
@[simp] theorem Engine.addBack_digest : (e.addBack p).digest = e.digest := rfl
@[simp] theorem Engine.addBack_live : (e.addBack p).live = e.live := rfl
@[simp] theorem Engine.addBack_dvalid : (e.addBack p).dvalid = e.dvalid := rfl
@[simp] theorem Engine.addBack_fault : (e.addBack p).fault = e.fault := rfl
@[simp] theorem Engine.addBack_fcode : (e.addBack p).fcode = e.fcode := rfl
@[simp] theorem Engine.addBack_v : (e.addBack p).v = p.v := rfl
@[simp] theorem Engine.addBack_win : (e.addBack p).win = p.win := rfl
@[simp] theorem Engine.addBack_t : (e.addBack p).t = p.t := rfl
@[simp] theorem Engine.addBack_bitlen : (e.addBack p).bitlen = e.bitlen := rfl
end

section
variable (e : Engine)
@[simp] theorem Engine.transform_count : e.transform.count = e.count := rfl
@[simp] theorem Engine.transform_buf : e.transform.buf = e.buf := rfl
@[simp] theorem Engine.transform_digest : e.transform.digest = e.digest := rfl
@[simp] theorem Engine.transform_live : e.transform.live = e.live := rfl
@[simp] theorem Engine.transform_dvalid : e.transform.dvalid = e.dvalid := rfl
@[simp] theorem Engine.transform_fault : e.transform.fault = e.fault := rfl
@[simp] theorem Engine.transform_fcode : e.transform.fcode = e.fcode := rfl
@[simp] theorem Engine.transform_bitlen : e.transform.bitlen = e.bitlen := rfl
end

section
variable (e : Engine)
@[simp] theorem Engine.latchBitLength_h : e.latchBitLength.h = e.h := rfl
@[simp] theorem Engine.latchBitLength_count : e.latchBitLength.count = e.count := rfl
@[simp] theorem Engine.latchBitLength_buf : e.latchBitLength.buf = e.buf := rfl
@[simp] theorem Engine.latchBitLength_digest : e.latchBitLength.digest = e.digest := rfl
@[simp] theorem Engine.latchBitLength_live : e.latchBitLength.live = e.live := rfl
@[simp] theorem Engine.latchBitLength_dvalid : e.latchBitLength.dvalid = e.dvalid := rfl
@[simp] theorem Engine.latchBitLength_fault : e.latchBitLength.fault = e.fault := rfl
@[simp] theorem Engine.latchBitLength_fcode : e.latchBitLength.fcode = e.fcode := rfl
@[simp] theorem Engine.latchBitLength_v : e.latchBitLength.v = e.v := rfl
@[simp] theorem Engine.latchBitLength_win : e.latchBitLength.win = e.win := rfl
@[simp] theorem Engine.latchBitLength_t : e.latchBitLength.t = e.t := rfl
@[simp] theorem Engine.latchBitLength_bitlen : e.latchBitLength.bitlen = bitLength e.count := rfl
end

section
variable (e : Engine)
@[simp] theorem Engine.storeLength_h : e.storeLength.h = e.h := rfl
@[simp] theorem Engine.storeLength_count : e.storeLength.count = e.count := rfl
@[simp] theorem Engine.storeLength_buf : e.storeLength.buf = e.buf.memWrite 56 8 e.bitlen.toNat := rfl
@[simp] theorem Engine.storeLength_digest : e.storeLength.digest = e.digest := rfl
@[simp] theorem Engine.storeLength_live : e.storeLength.live = e.live := rfl
@[simp] theorem Engine.storeLength_dvalid : e.storeLength.dvalid = e.dvalid := rfl
@[simp] theorem Engine.storeLength_fault : e.storeLength.fault = e.fault := rfl
@[simp] theorem Engine.storeLength_fcode : e.storeLength.fcode = e.fcode := rfl
@[simp] theorem Engine.storeLength_v : e.storeLength.v = e.v := rfl
@[simp] theorem Engine.storeLength_win : e.storeLength.win = e.win := rfl
@[simp] theorem Engine.storeLength_t : e.storeLength.t = e.t := rfl
@[simp] theorem Engine.storeLength_bitlen : e.storeLength.bitlen = e.bitlen := rfl
end

section
variable (e : Engine)
@[simp] theorem Engine.emitDigest_h : e.emitDigest.h = e.h := rfl
@[simp] theorem Engine.emitDigest_count : e.emitDigest.count = e.count := rfl
@[simp] theorem Engine.emitDigest_buf : e.emitDigest.buf = e.buf := rfl
@[simp] theorem Engine.emitDigest_digest : e.emitDigest.digest = serialize e.h := rfl
@[simp] theorem Engine.emitDigest_live : e.emitDigest.live = e.live := rfl
@[simp] theorem Engine.emitDigest_dvalid : e.emitDigest.dvalid = true := rfl
@[simp] theorem Engine.emitDigest_fault : e.emitDigest.fault = e.fault := rfl
@[simp] theorem Engine.emitDigest_fcode : e.emitDigest.fcode = e.fcode := rfl
@[simp] theorem Engine.emitDigest_v : e.emitDigest.v = e.v := rfl
@[simp] theorem Engine.emitDigest_win : e.emitDigest.win = e.win := rfl
@[simp] theorem Engine.emitDigest_t : e.emitDigest.t = e.t := rfl
@[simp] theorem Engine.emitDigest_bitlen : e.emitDigest.bitlen = e.bitlen := rfl
end

section
variable (e : Engine) (j : Nat) (bs : List Byte)
@[simp] theorem Engine.copyIn_h : (e.copyIn j bs).h = e.h := rfl
@[simp] theorem Engine.copyIn_count : (e.copyIn j bs).count = e.count := rfl
@[simp] theorem Engine.copyIn_buf : (e.copyIn j bs).buf = e.buf.copyIn (BitVec.ofNat 6 j) bs := rfl
@[simp] theorem Engine.copyIn_digest : (e.copyIn j bs).digest = e.digest := rfl
@[simp] theorem Engine.copyIn_live : (e.copyIn j bs).live = e.live := rfl
@[simp] theorem Engine.copyIn_dvalid : (e.copyIn j bs).dvalid = e.dvalid := rfl
@[simp] theorem Engine.copyIn_fault : (e.copyIn j bs).fault = e.fault := rfl
@[simp] theorem Engine.copyIn_fcode : (e.copyIn j bs).fcode = e.fcode := rfl
@[simp] theorem Engine.copyIn_v : (e.copyIn j bs).v = e.v := rfl
@[simp] theorem Engine.copyIn_win : (e.copyIn j bs).win = e.win := rfl
@[simp] theorem Engine.copyIn_t : (e.copyIn j bs).t = e.t := rfl
@[simp] theorem Engine.copyIn_bitlen : (e.copyIn j bs).bitlen = e.bitlen := rfl
end

section
variable (e : Engine)
@[simp] theorem Engine.wipe_h : e.wipe.h = Engine.reset.h := rfl
@[simp] theorem Engine.wipe_count : e.wipe.count = 0 := rfl
@[simp] theorem Engine.wipe_buf : e.wipe.buf = Engine.reset.buf := rfl
@[simp] theorem Engine.wipe_digest : e.wipe.digest = e.digest := rfl
@[simp] theorem Engine.wipe_live : e.wipe.live = false := rfl
@[simp] theorem Engine.wipe_dvalid : e.wipe.dvalid = e.dvalid := rfl
@[simp] theorem Engine.wipe_fault : e.wipe.fault = e.fault := rfl
@[simp] theorem Engine.wipe_fcode : e.wipe.fcode = e.fcode := rfl
@[simp] theorem Engine.wipe_v : e.wipe.v = Engine.reset.v := rfl
@[simp] theorem Engine.wipe_win : e.wipe.win = Engine.reset.win := rfl
@[simp] theorem Engine.wipe_t : e.wipe.t = 0 := rfl
@[simp] theorem Engine.wipe_bitlen : e.wipe.bitlen = 0 := rfl
end

section
variable (s : State) (c : CommandFault)
@[simp] theorem State.raise_eng : (s.raise c).eng = s.eng.raise c := rfl
@[simp] theorem State.raise_remaining : (s.raise c).remaining = s.remaining := rfl
@[simp] theorem State.raise_sample : (s.raise c).sample = s.sample := rfl
@[simp] theorem State.raise_rst : (s.raise c).ports.rst = s.ports.rst := rfl
@[simp] theorem State.raise_cmd : (s.raise c).ports.cmd = s.ports.cmd := rfl
@[simp] theorem State.raise_din : (s.raise c).ports.din = s.ports.din := rfl
end

section
variable (s : State)
@[simp] theorem State.takeReset_eng : s.takeReset.eng = Engine.reset := rfl
@[simp] theorem State.takeReset_remaining : s.takeReset.remaining = 0 := rfl
@[simp] theorem State.takeReset_sample : s.takeReset.sample = s.sample := rfl
@[simp] theorem State.takeReset_rst : s.takeReset.ports.rst = false := rfl
@[simp] theorem State.takeReset_cmd : s.takeReset.ports.cmd = s.ports.cmd := rfl
@[simp] theorem State.takeReset_din : s.takeReset.ports.din = s.ports.din := rfl
end

section
variable (s : State) (ws : List Word)
@[simp] theorem State.withCommands_eng : (s.withCommands ws).eng = s.eng := rfl
@[simp] theorem State.withCommands_remaining : (s.withCommands ws).remaining = s.remaining := rfl
@[simp] theorem State.withCommands_sample : (s.withCommands ws).sample = s.sample := rfl
@[simp] theorem State.withCommands_rst : (s.withCommands ws).ports.rst = s.ports.rst := rfl
@[simp] theorem State.withCommands_cmd : (s.withCommands ws).ports.cmd = ws := rfl
@[simp] theorem State.withCommands_din : (s.withCommands ws).ports.din = s.ports.din := rfl
end

section
variable (s : State) (w : Word)
@[simp] theorem State.presentFirst_eng : (s.presentFirst w).eng = s.eng := rfl
@[simp] theorem State.presentFirst_remaining : (s.presentFirst w).remaining = 0 := rfl
@[simp] theorem State.presentFirst_sample : (s.presentFirst w).sample = s.sample := rfl
@[simp] theorem State.presentFirst_rst : (s.presentFirst w).ports.rst = false := rfl
@[simp] theorem State.presentFirst_cmd : (s.presentFirst w).ports.cmd = w :: s.ports.cmd := rfl
@[simp] theorem State.presentFirst_din : (s.presentFirst w).ports.din = s.ports.din := rfl
end

section
variable (s : State) (w : Word)
@[simp] theorem State.present_eng : (s.present w).eng = s.eng := rfl
@[simp] theorem State.present_remaining : (s.present w).remaining = s.remaining := rfl
@[simp] theorem State.present_sample : (s.present w).sample = s.sample := rfl
@[simp] theorem State.present_rst : (s.present w).ports.rst = s.ports.rst := rfl
@[simp] theorem State.present_cmd : (s.present w).ports.cmd = s.ports.cmd ++ [w] := rfl
@[simp] theorem State.present_din : (s.present w).ports.din = s.ports.din := rfl
end

section
variable (s : State) (bs : List Byte)
@[simp] theorem State.supply_eng : (s.supply bs).eng = s.eng := rfl
@[simp] theorem State.supply_remaining : (s.supply bs).remaining = s.remaining := rfl
@[simp] theorem State.supply_sample : (s.supply bs).sample = s.sample := rfl
@[simp] theorem State.supply_rst : (s.supply bs).ports.rst = s.ports.rst := rfl
@[simp] theorem State.supply_cmd : (s.supply bs).ports.cmd = s.ports.cmd := rfl
@[simp] theorem State.supply_din : (s.supply bs).ports.din = s.ports.din ++ bs := rfl
end

section
variable (s : State)
@[simp] theorem State.assertReset_eng : s.assertReset.eng = s.eng := rfl
@[simp] theorem State.assertReset_remaining : s.assertReset.remaining = s.remaining := rfl
@[simp] theorem State.assertReset_sample : s.assertReset.sample = s.sample := rfl
@[simp] theorem State.assertReset_rst : s.assertReset.ports.rst = true := rfl
@[simp] theorem State.assertReset_cmd : s.assertReset.ports.cmd = s.ports.cmd := rfl
@[simp] theorem State.assertReset_din : s.assertReset.ports.din = s.ports.din := rfl
end

section
variable (s : State) (i : Instr) (bs : List Byte)
@[simp] theorem State.offer_eng : (s.offer i bs).eng = s.eng := rfl
@[simp] theorem State.offer_remaining : (s.offer i bs).remaining = s.remaining := rfl
@[simp] theorem State.offer_sample : (s.offer i bs).sample = s.sample := rfl
@[simp] theorem State.offer_rst : (s.offer i bs).ports.rst = false := rfl
@[simp] theorem State.offer_cmd : (s.offer i bs).ports.cmd = [encode i] := rfl
@[simp] theorem State.offer_din : (s.offer i bs).ports.din = bs := rfl
end

section
variable (s : State)
@[simp] theorem State.absorbOffered_eng : s.absorbOffered.eng = s.eng.absorbAll (acceptable s) := rfl
@[simp] theorem State.absorbOffered_remaining : s.absorbOffered.remaining = s.remaining - s.ports.din.length := rfl
@[simp] theorem State.absorbOffered_rst : s.absorbOffered.ports.rst = s.ports.rst := rfl
@[simp] theorem State.absorbOffered_cmd : s.absorbOffered.ports.cmd = s.ports.cmd := rfl
@[simp] theorem State.absorbOffered_din : s.absorbOffered.ports.din = s.ports.din.drop s.remaining := rfl
end

end Sys2Proof.Machine
end

