-- ==== Sys2Proof/Laws/Pipeline.lean ====
section
/-! SUPPORT. The transients of a TRANSFORM: reading a role or a window slot after a write of another, the round index, and
the growth of the schedule list. `80` and `64` never need to be unfolded: each lemma is about `n` rounds or words. -/

namespace Sys2Proof.Machine

/-- The index mapping of the roles moves by one index a round (43 R101). -/
theorem roleIndex_succ (k t : Nat) : roleIndex (k + 1) (t + 1) = roleIndex k t := by
  unfold roleIndex; omega

/-- After a round, role `a` is read where role `e` stood (43 R101). -/
theorem roleIndex_zero_succ (t : Nat) : roleIndex 0 (t + 1) = roleIndex 4 t := by
  unfold roleIndex; omega

/-- Two roles never share a word. -/
theorem roleIndex_ne {k k' t : Nat} (h : k < 5) (h' : k' < 5) (hne : k ≠ k') : roleIndex k t ≠ roleIndex k' t := by
  unfold roleIndex; omega

/-- When `t` is a multiple of 5, as 80 is, role `k` is in word `k` (43 R101). -/
theorem roleIndex_of_dvd {k t : Nat} (hk : k < 5) (ht : t % 5 = 0) : roleIndex k t = k := by
  unfold roleIndex; omega

theorem Pipeline.role_of_index_eq (p : Pipeline) {k t k' t' : Nat} (h : roleIndex k t = roleIndex k' t') :
    p.role k t = p.role k' t' := by
  simp [Pipeline.role, h]

theorem Pipeline.role_of_v_eq {p q : Pipeline} (h : p.v = q.v) (k t : Nat) : p.role k t = q.role k t := by
  simp [Pipeline.role, h]

theorem Pipeline.role_setRole_self (p : Pipeline) (k t : Nat) (w : Word) : (p.setRole k t w).role k t = w := by
  simp [Pipeline.role, Pipeline.setRole]

theorem Pipeline.role_setRole_ne (p : Pipeline) {k k' : Nat} (t : Nat) (w : Word) (hk : k < 5) (hk' : k' < 5)
    (h : k' ≠ k) : (p.setRole k t w).role k' t = p.role k' t := by
  simp [Pipeline.role, Pipeline.setRole, (roleIndex_ne hk' hk h).symm]

theorem Pipeline.winAt_of_win_eq {p q : Pipeline} (h : p.win = q.win) (i : Nat) : p.winAt i = q.winAt i := by
  simp [Pipeline.winAt, h]

/-- Reading the window after a write of one slot (10 R35). -/
theorem Pipeline.winAt_setWin (p : Pipeline) (i j : Nat) (w : Word) :
    (p.setWin i w).winAt j = if j % 16 = i % 16 then w else p.winAt j := by
  by_cases h : j % 16 = i % 16
  · simp [Pipeline.winAt, Pipeline.setWin, h]
  · simp [Pipeline.winAt, Pipeline.setWin, h, Ne.symm h]

@[simp] theorem Pipeline.sched_v (p : Pipeline) : p.sched.v = p.v := by
  unfold Pipeline.sched; dsimp only; split <;> rfl

@[simp] theorem Pipeline.sched_t (p : Pipeline) : p.sched.t = p.t := by
  unfold Pipeline.sched; dsimp only; split <;> rfl

/-- What SCHED does to a slot (42 R90). -/
theorem Pipeline.winAt_sched (p : Pipeline) (j : Nat) :
    p.sched.winAt j =
      if 16 ≤ p.t.toNat ∧ j % 16 = p.t.toNat % 16 then
        rotl (p.winAt (p.t.toNat - 3) ^^^ p.winAt (p.t.toNat - 8) ^^^ p.winAt (p.t.toNat - 14) ^^^ p.winAt p.t.toNat) 1
      else p.winAt j := by
  unfold Pipeline.sched
  dsimp only
  split
  · next h => simp [Pipeline.winAt_setWin, h]
  · next h => simp [h]

/-- After `n` rounds the round index has advanced by `n` (43 R103). -/
theorem Pipeline.runRounds_t (n : Nat) (p : Pipeline) : (Pipeline.runRounds n p).t = p.t + BitVec.ofNat 7 n := by
  induction n with
  | zero => simp [Pipeline.runRounds]
  | succ n ih =>
    rw [Pipeline.runRounds, Pipeline.round_t, Pipeline.sched_t, ih, BitVec.ofNat_add, BitVec.add_assoc]; rfl

@[simp] theorem blockWords_length (block : List Byte) : (blockWords block).length = 16 := by simp [blockWords]

theorem extend_length (ms : List Word) (n : Nat) : (extend ms n).length = ms.length + n := by
  induction n with
  | zero => simp [extend]
  | succ n ih => simp [extend, ih]; omega

/-- A schedule word never changes once it is produced. -/
theorem extend_getD_add (ms : List Word) (n m t : Nat) (h : t < ms.length + n) :
    (extend ms (n + m)).getD t 0 = (extend ms n).getD t 0 := by
  induction m with
  | zero => rfl
  | succ m ih =>
    rw [← Nat.add_assoc, extend, ← ih]
    simp only [List.getD_eq_getElem?_getD]
    rw [List.getElem?_append_left (by rw [extend_length]; omega)]

end Sys2Proof.Machine
end

