-- ==== Sys2Proof/Laws/Engine.lean ====
section
/-! SUPPORT. What the engine's composed operations do, field by field: ABSORB and strings of it
(41 R82, R83), the padding loop (44 R111), and that each keeps `BUF` in canonical form. -/

namespace Sys2Proof.Machine

section
variable (e : Engine) (x : Byte) (bs : List Byte) (n : Nat)
theorem Engine.absorb_digest : (e.absorb x).digest = e.digest := by
  unfold Engine.absorb; dsimp only; split <;> rfl
theorem Engine.absorbAll_digest : (e.absorbAll bs).digest = e.digest := by
  induction bs generalizing e with
  | nil => rfl
  | cons x bs ih => exact (ih (e.absorb x)).trans (e.absorb_digest x)
theorem Engine.padZeros_digest : (Engine.padZeros n e).digest = e.digest := by
  induction n generalizing e with
  | zero => rfl
  | succ n ih =>
    unfold Engine.padZeros
    split
    · rfl
    · exact (ih (e.absorb 0)).trans (e.absorb_digest 0)
theorem Engine.absorb_live : (e.absorb x).live = e.live := by
  unfold Engine.absorb; dsimp only; split <;> rfl
theorem Engine.absorbAll_live : (e.absorbAll bs).live = e.live := by
  induction bs generalizing e with
  | nil => rfl
  | cons x bs ih => exact (ih (e.absorb x)).trans (e.absorb_live x)
theorem Engine.padZeros_live : (Engine.padZeros n e).live = e.live := by
  induction n generalizing e with
  | zero => rfl
  | succ n ih =>
    unfold Engine.padZeros
    split
    · rfl
    · exact (ih (e.absorb 0)).trans (e.absorb_live 0)
theorem Engine.absorb_dvalid : (e.absorb x).dvalid = e.dvalid := by
  unfold Engine.absorb; dsimp only; split <;> rfl
theorem Engine.absorbAll_dvalid : (e.absorbAll bs).dvalid = e.dvalid := by
  induction bs generalizing e with
  | nil => rfl
  | cons x bs ih => exact (ih (e.absorb x)).trans (e.absorb_dvalid x)
theorem Engine.padZeros_dvalid : (Engine.padZeros n e).dvalid = e.dvalid := by
  induction n generalizing e with
  | zero => rfl
  | succ n ih =>
    unfold Engine.padZeros
    split
    · rfl
    · exact (ih (e.absorb 0)).trans (e.absorb_dvalid 0)
theorem Engine.absorb_fault : (e.absorb x).fault = e.fault := by
  unfold Engine.absorb; dsimp only; split <;> rfl
theorem Engine.absorbAll_fault : (e.absorbAll bs).fault = e.fault := by
  induction bs generalizing e with
  | nil => rfl
  | cons x bs ih => exact (ih (e.absorb x)).trans (e.absorb_fault x)
theorem Engine.padZeros_fault : (Engine.padZeros n e).fault = e.fault := by
  induction n generalizing e with
  | zero => rfl
  | succ n ih =>
    unfold Engine.padZeros
    split
    · rfl
    · exact (ih (e.absorb 0)).trans (e.absorb_fault 0)
theorem Engine.absorb_fcode : (e.absorb x).fcode = e.fcode := by
  unfold Engine.absorb; dsimp only; split <;> rfl
theorem Engine.absorbAll_fcode : (e.absorbAll bs).fcode = e.fcode := by
  induction bs generalizing e with
  | nil => rfl
  | cons x bs ih => exact (ih (e.absorb x)).trans (e.absorb_fcode x)
theorem Engine.padZeros_fcode : (Engine.padZeros n e).fcode = e.fcode := by
  induction n generalizing e with
  | zero => rfl
  | succ n ih =>
    unfold Engine.padZeros
    split
    · rfl
    · exact (ih (e.absorb 0)).trans (e.absorb_fcode 0)
theorem Engine.absorb_bitlen : (e.absorb x).bitlen = e.bitlen := by
  unfold Engine.absorb; dsimp only; split <;> rfl
theorem Engine.absorbAll_bitlen : (e.absorbAll bs).bitlen = e.bitlen := by
  induction bs generalizing e with
  | nil => rfl
  | cons x bs ih => exact (ih (e.absorb x)).trans (e.absorb_bitlen x)
theorem Engine.padZeros_bitlen : (Engine.padZeros n e).bitlen = e.bitlen := by
  induction n generalizing e with
  | zero => rfl
  | succ n ih =>
    unfold Engine.padZeros
    split
    · rfl
    · exact (ih (e.absorb 0)).trans (e.absorb_bitlen 0)
end

/-- TRANSFORM reads `BUF` and `H` and nothing else (42 R87). -/
theorem Engine.transform_congr {x y : Engine} (hb : x.buf = y.buf) (hh : x.h = y.h) :
    x.transform.h = y.transform.h ∧ x.transform.v = y.transform.v ∧ x.transform.win = y.transform.win ∧
      x.transform.t = y.transform.t := by
  obtain ⟨h, c, b, _⟩ := x
  obtain ⟨h', c', b', _⟩ := y
  obtain rfl : b = b' := hb
  obtain rfl : h = h' := hh
  unfold Engine.transform
  dsimp only
  generalize (loadBlock b h).allRounds = p
  exact ⟨rfl, rfl, rfl, rfl⟩

/-- TRANSFORM neither reads nor writes `COUNT` (43 R106), so counting before it or after it is the same (93 U15). -/
theorem Engine.transform_withCount (e : Engine) (c : BitVec 64) :
    Engine.transform { e with count := c } = { e.transform with count := c } := by
  unfold Engine.transform
  generalize (loadBlock e.buf e.h).allRounds = p
  rfl

/-- ABSORB counts one byte, whether the block filled or not (41 R82). -/
theorem Engine.absorb_count (e : Engine) (x : Byte) : (e.absorb x).count = e.count + 1 := by
  unfold Engine.absorb; dsimp only; split <;> rfl

/-- ABSORB writes one byte of `BUF` (41 R82). -/
theorem Engine.absorb_buf (e : Engine) (x : Byte) :
    (e.absorb x).buf = e.buf.write (pendingOffset e.count) x := by
  unfold Engine.absorb; dsimp only; split <;> rfl

/-- Below offset 63 ABSORB runs no TRANSFORM (41 R82). -/
theorem Engine.absorb_of_ne (e : Engine) (x : Byte) (h : pendingOffset e.count ≠ 63) :
    e.absorb x = { e with buf := e.buf.write (pendingOffset e.count) x, count := e.count + 1 } := by
  unfold Engine.absorb; dsimp only; rw [if_neg h]

/-- At offset 63 ABSORB runs TRANSFORM on the filled buffer (41 R82). -/
theorem Engine.absorb_of_eq (e : Engine) (x : Byte) (h : pendingOffset e.count = 63) :
    e.absorb x = Engine.transform { e with buf := e.buf.write (pendingOffset e.count) x, count := e.count + 1 } := by
  unfold Engine.absorb; dsimp only; rw [if_pos h]

@[simp] theorem Engine.absorbAll_nil (e : Engine) : e.absorbAll [] = e := rfl

@[simp] theorem Engine.absorbAll_cons (e : Engine) (x : Byte) (bs : List Byte) :
    e.absorbAll (x :: bs) = (e.absorb x).absorbAll bs := rfl

theorem Engine.absorbAll_append (e : Engine) (xs ys : List Byte) :
    e.absorbAll (xs ++ ys) = (e.absorbAll xs).absorbAll ys := List.foldl_append

/-- The offset moves by one with every byte counted (10 R30). -/
theorem pendingOffset_add (c d : BitVec 64) : pendingOffset (c + d) = pendingOffset c + pendingOffset d := by
  apply BitVec.eq_of_toNat_eq
  simp only [pendingOffset, BitVec.extractLsb'_toNat, BitVec.toNat_add, Nat.shiftRight_zero]
  omega

/-- The offset after `n` more bytes (10 R30). -/
theorem pendingOffset_add_toNat (c : BitVec 64) (n : Nat) :
    (pendingOffset (c + BitVec.ofNat 64 n)).toNat = ((pendingOffset c).toNat + n) % 64 := by
  rw [pendingOffset_add]
  simp [pendingOffset]

/-- The engine with the bytes `bs` stored and counted, and no TRANSFORM run. -/
def Engine.stored (e : Engine) (bs : List Byte) : Engine :=
  { e with buf := e.buf.copyIn (pendingOffset e.count) bs, count := e.count + BitVec.ofNat 64 bs.length }

theorem Engine.stored_cons (e : Engine) (x : Byte) (bs : List Byte) :
    Engine.stored { e with buf := e.buf.write (pendingOffset e.count) x, count := e.count + 1 } bs =
      e.stored (x :: bs) := by
  have h1 : pendingOffset (e.count + 1) = pendingOffset e.count + 1 := by rw [pendingOffset_add]; rfl
  have h2 : e.count + 1 + BitVec.ofNat 64 bs.length = e.count + BitVec.ofNat 64 (x :: bs).length := by
    rw [BitVec.add_assoc, List.length_cons, Nat.add_comm, BitVec.ofNat_add]; rfl
  simp only [Engine.stored, Memory.copyIn, h1, h2]

/-- Bytes that do not fill the block are stored and counted, and no TRANSFORM occurs (41 R77 step 4). -/
theorem Engine.absorbAll_short (e : Engine) (bs : List Byte) (h : (pendingOffset e.count).toNat + bs.length ≤ 63) :
    e.absorbAll bs = e.stored bs := by
  induction bs generalizing e with
  | nil => simp [Engine.stored, Memory.copyIn]
  | cons x bs ih =>
    have hne : pendingOffset e.count ≠ 63 := by
      intro hh; rw [hh] at h; simp at h
    rw [Engine.absorbAll_cons, Engine.absorb_of_ne _ _ hne, ih, Engine.stored_cons]
    have := pendingOffset_add_toNat e.count 1
    simp at this h ⊢
    omega

/-- Bytes that fill the block exactly are stored and counted, and then TRANSFORM runs once (41 R77 step 3). -/
theorem Engine.absorbAll_full (e : Engine) (bs : List Byte) (hb : bs ≠ [])
    (h : (pendingOffset e.count).toNat + bs.length = 64) : e.absorbAll bs = (e.stored bs).transform := by
  induction bs generalizing e with
  | nil => simp at hb
  | cons x bs ih =>
    rw [Engine.absorbAll_cons]
    by_cases hbs : bs = []
    · subst hbs
      have h63 : pendingOffset e.count = 63 := by
        apply BitVec.eq_of_toNat_eq; simp at h ⊢; omega
      rw [Engine.absorb_of_eq _ _ h63]
      rfl
    · have : bs.length ≠ 0 := by simpa using hbs
      have hne : pendingOffset e.count ≠ 63 := by
        intro hh; rw [hh] at h; simp at h; omega
      rw [Engine.absorb_of_ne _ _ hne, ih _ hbs, Engine.stored_cons]
      have := pendingOffset_add_toNat e.count 1
      simp at this h ⊢
      omega

/-- A string of ABSORBs counts its bytes (41 R83). -/
theorem Engine.absorbAll_count (e : Engine) (bs : List Byte) :
    (e.absorbAll bs).count = e.count + BitVec.ofNat 64 bs.length := by
  induction bs generalizing e with
  | nil => simp
  | cons x bs ih =>
    rw [Engine.absorbAll_cons, ih, Engine.absorb_count, BitVec.add_assoc, List.length_cons, Nat.add_comm,
      BitVec.ofNat_add]
    rfl

/-- The wipe leaves what RESET leaves, but for the output register and the fault fields (70 R137). -/
theorem Engine.wipe_eq (e : Engine) : e.wipe = { Engine.reset with
    digest := e.digest, dvalid := e.dvalid, fault := e.fault, fcode := e.fcode } := rfl

theorem Engine.absorb_wf {e : Engine} (h : e.buf.wf) (x : Byte) : (e.absorb x).buf.wf := by
  rw [Engine.absorb_buf]; exact Memory.wf_write h _ _

theorem Engine.absorbAll_wf {e : Engine} (h : e.buf.wf) (bs : List Byte) : (e.absorbAll bs).buf.wf := by
  induction bs generalizing e with
  | nil => exact h
  | cons x bs ih => exact ih (Engine.absorb_wf h x)

end Sys2Proof.Machine
end

