-- ==== Sys2Proof/Laws/PerInstr.lean ====
section
/-! SUPPORT. Statements about every command as syntax, one lemma per constructor. -/

namespace Sys2Proof.Laws.TableRow

/-- The word of a command lies in its row of the opcode table: `word & mask = match` (30 R60). -/
def Statement (i : Instr) : Prop := encode i &&& tableMask i = tableMatch i

theorem init : Statement .init := by unfold Statement; decide

theorem update (len : Nat) : Statement (.update len) := by
  have : (0xFF000000 : Word) = (0xFF : BitVec 8) ++ (0 : BitVec 24) := by decide
  show commandWord opUpdate (BitVec.ofNat 24 len) &&& 0xFF000000 = 0x02000000
  rw [this, commandWord, BitVec.and_append, show BitVec.ofNat 24 len &&& (0 : BitVec 24) = 0 from BitVec.and_zero]
  decide

theorem final : Statement .final := by unfold Statement; decide

end Sys2Proof.Laws.TableRow
end

