-- ==== Sys2Proof/Laws/Step.lean ====
section
/-! SUPPORT. What accepting a command and one step can do, said once. -/

namespace Sys2Proof.Machine

/-- The engine can accept a command when it has taken no fault and executes none (30 R58). -/
theorem cmdReady_iff (s : State) : cmdReady s = true ↔ s.eng.fault = false ∧ s.remaining = 0 := by
  simp [cmdReady]

theorem accepting_ready {s : State} (h : cmdReady s = true) (body : State → Host.Outcome State Fault Refusal) :
    accepting s body = body s := by
  obtain ⟨hf, hr⟩ := (cmdReady_iff s).1 h
  simp [accepting, hf, hr]

/-- A command that has an effect was accepted (30 R58). -/
theorem accepting_next {s t : State} {body : State → Host.Outcome State Fault Refusal}
    (h : accepting s body = .next t) : cmdReady s = true ∧ body s = .next t := by
  unfold accepting at h
  split at h
  · cases h
  · next hf =>
    split at h
    · next hr => exact ⟨(cmdReady_iff s).2 ⟨by simpa using hf, hr⟩, h⟩
    · cases h

/-- UPDATE and FINAL have their effect in LIVE, and take `ProtocolFault` otherwise (60 R128). -/
theorem requiringLive_next {s t : State} {body : State → Host.Outcome State Fault Refusal}
    (h : requiringLive s body = .next t) :
    (s.eng.live = true ∧ body s = .next t) ∨ (s.eng.live = false ∧ t = s.raise .protocolFault) := by
  unfold requiringLive at h
  split at h
  · next hl => exact .inl ⟨hl, h⟩
  · next hl => exact .inr ⟨by simpa using hl, by injection h with h; exact h.symm⟩

/-- Everything a command can do when it answers a next state. -/
theorem exec_next_cases {i : Instr} {s t : State} (h : exec i s = .next t) :
    cmdReady s = true ∧
    ((i = .init ∧ t = { s with eng := s.eng.init }) ∨
     (∃ len, i = .update len ∧ s.eng.live = true ∧ t = State.absorbOffered { s with remaining := len }) ∨
     (i = .final ∧ s.eng.live = true ∧ t = { s with eng := s.eng.finalize }) ∨
     (i ≠ .init ∧ s.eng.live = false ∧ t = s.raise .protocolFault)) := by
  cases i with
  | init =>
    simp only [exec, execInit] at h
    obtain ⟨hr, h⟩ := accepting_next h
    injection h with h
    exact ⟨hr, .inl ⟨rfl, h.symm⟩⟩
  | update len =>
    simp only [exec, execUpdate] at h
    obtain ⟨hr, h⟩ := accepting_next h
    refine ⟨hr, ?_⟩
    rcases requiringLive_next h with ⟨hl, h⟩ | ⟨hl, h⟩
    · injection h with h
      exact .inr (.inl ⟨len, rfl, hl, h.symm⟩)
    · exact .inr (.inr (.inr ⟨by simp, hl, h⟩))
  | final =>
    simp only [exec, execFinal] at h
    obtain ⟨hr, h⟩ := accepting_next h
    refine ⟨hr, ?_⟩
    rcases requiringLive_next h with ⟨hl, h⟩ | ⟨hl, h⟩
    · injection h with h
      exact .inr (.inr (.inl ⟨rfl, hl, h.symm⟩))
    · exact .inr (.inr (.inr ⟨by simp, hl, h⟩))

/-- Everything a step can do when it answers a next state: RESET, an idle turn, a reserved word, a command, or more data
for an executing UPDATE (00 R6). -/
theorem step_next_cases {s t : State} (h : step s = .next t) :
    (s.ports.rst = true ∧ t = s.takeReset) ∨
    (s.ports.rst = false ∧ s.eng.fault = false ∧
      ((s.remaining = 0 ∧ s.ports.cmd = [] ∧ t = s) ∨
       (∃ w ws why, s.remaining = 0 ∧ s.ports.cmd = w :: ws ∧ decode w = .reserved why ∧
          t = (s.withCommands ws).raise .reservedCommand) ∨
       (∃ w ws i, s.remaining = 0 ∧ s.ports.cmd = w :: ws ∧ decode w = .instr i ∧
          exec i (s.withCommands ws) = .next t) ∨
       (s.remaining ≠ 0 ∧ t = s.absorbOffered))) := by
  unfold step turn at h
  split at h
  · next hrst => exact .inl ⟨hrst, by injection h with h; exact h.symm⟩
  · next hrst =>
    split at h
    · cases h
    · next hf =>
      refine .inr ⟨by simpa using hrst, by simpa using hf, ?_⟩
      split at h
      · next hr =>
        unfold acceptNext at h
        split at h
        · next hc => exact .inl ⟨hr, hc, by injection h with h; exact h.symm⟩
        · next w ws hc =>
          unfold acceptWord at h
          split at h
          · next i hd => exact .inr (.inr (.inl ⟨w, ws, i, hr, hc, hd, h⟩))
          · next why hd => exact .inr (.inl ⟨w, ws, why, hr, hc, hd, by injection h with h; exact h.symm⟩)
      · next hr => exact .inr (.inr (.inr ⟨hr, by injection h with h; exact h.symm⟩))

/-- No command is refused: every constructor has its meaning. -/
theorem exec_ne_refused (i : Instr) (s : State) (r : Refusal) : exec i s ≠ .refused r := by
  cases i <;> simp only [exec, execInit, execUpdate, execFinal, accepting, requiringLive] <;> split <;> try simp
  all_goals split <;> try simp
  all_goals split <;> simp

end Sys2Proof.Machine
end

