-- ==== Sys2Proof/Tests/Slice0.lean ====
section
/-! SUPPORT. Tests. Expected values come from the spec's worked examples and vectors (95), named in each docstring; and,
after them, a witness for the hypotheses of every statement of Certificates/Slice0/Obligations.lean. -/

namespace Sys2Proof.Tests

open Sys2Proof Sys2Proof.Machine

/-! ### Helpers -/

/-- The next state, or `d` where the step stops. -/
def nextOr (d : State) : Host.Outcome State Fault Refusal → State
  | .next s => s
  | .fault _ => d
  | .refused _ => d

/-- An engine in LIVE with the given `H`, `COUNT` and bytes at offset 0. -/
def liveEngine (h : Vector Word 5) (count : BitVec 64) (bs : List Byte) : Engine :=
  { Engine.reset with h := h, count := count, buf := Memory.copyIn [] 0 bs, live := true }

/-- A machine with the given engine, words and data presented. -/
def machine (e : Engine) (cmd : List Word) (din : List Byte) : State :=
  { State.reset with eng := e, ports := { rst := false, cmd := cmd, din := din } }

def abc : List Byte := [0x61, 0x62, 0x63]
def liveS (cmd : List Word) (din : List Byte) : State := machine (liveEngine iv 0 []) cmd din
def voidS (cmd : List Word) (din : List Byte) : State := machine Engine.reset cmd din
def haltedS (cmd : List Word) : State := machine (Engine.reset.raise .protocolFault) cmd []
def waitingS (n : Nat) (din : List Byte) : State := { liveS [] din with remaining := n }
def resetS (s : State) : State := s.assertReset
/-- The one block of "abc" (95 V14). -/
def abcBlock : List Byte := [0x61, 0x62, 0x63, 0x80] ++ List.replicate 59 0x00 ++ [0x18]

/-! ### Well-formedness, decoding, encoding (95 V11) -/

theorem test_wellFormed_refuses_long_update : (Instr.update 16777216).wellFormed = false := by decide
theorem test_wellFormed_longest_update : (Instr.update 16777215).wellFormed = true := by decide
/-- 30 R59, R60: INIT is `OP` 0000_0001, `LEN` zero. -/
theorem test_decode_init : decode 0b00000001_000000000000000000000000 = .instr .init := by decide
/-- 30 R59, R60, R61: UPDATE is `OP` 0000_0010, `LEN` as it is; here 56, 1,000,000 and the largest. -/
theorem test_decode_update : decode 0b00000010_000000000000000000111000 = .instr (.update 56) ∧
    decode 0x020F4240 = .instr (.update 1000000) ∧ decode 0x02FFFFFF = .instr (.update 16777215) := by decide
/-- 30 R59, R60: FINAL is `OP` 0000_0011, `LEN` zero. -/
theorem test_decode_final : decode 0b00000011_000000000000000000000000 = .instr .final := by decide
/-- 95 V11: reserved words, each kind by its name. -/
theorem test_decode_reserved : decode 0x03000014 = .reserved (.nonzeroLen 3 20) ∧
    decode 0x00000003 = .reserved (.unassignedOp 0) ∧ decode 0x80000000 = .reserved (.unassignedOp 0x80) := by decide
/-- 95 V11, "Encoding the other way". -/
theorem test_encode : encode (.update 65536) = 0x02010000 ∧ encode .init = 0x01000000 ∧ encode .final = 0x03000000 := by
  decide
theorem test_decodeTableWord : decodeTableWord 32 0x02000003 = some (.update 3) ∧
    decodeTableWord 32 0x01000001 = none ∧ decodeTableWord 40 0x0102000003 = none := by decide

/-! ### Arithmetic and the round functions (95 V10, V16) -/

theorem test_rotl : rotl 0x67452301 5 = 0xE8A4602C ∧ rotl 0xEFCDAB89 30 = 0x7BF36AE2 ∧ rotl 0x61626380 1 = 0xC2C4C700 := by
  decide
theorem test_bitLength : bitLength 3 = 0x18 ∧ bitLength (BitVec.ofNat 64 (2 ^ 61 + 3)) = 24 := by decide
/-- 95 V16, the truth-table row. -/
theorem test_round_functions : f0 0xF0F0F0F0 0xCCCCCCCC 0xAAAAAAAA = 0xCACACACA ∧
    f1 0xF0F0F0F0 0xCCCCCCCC 0xAAAAAAAA = 0x96969696 ∧ f2 0xF0F0F0F0 0xCCCCCCCC 0xAAAAAAAA = 0xE8E8E8E8 ∧
    f3 0xF0F0F0F0 0xCCCCCCCC 0xAAAAAAAA = 0x96969696 := by decide
/-- 43 R101: at `T = 1` the roles `a, b, c, d, e` are at indices 4, 0, 1, 2, 3. -/
theorem test_roleIndex : [0, 1, 2, 3, 4].map (roleIndex · 1) = [4, 0, 1, 2, 3] := by decide

/-! ### The buffer and TRANSFORM (95 V14, V15, V17, V18, V19) -/

/-- 20 R44, 44 R114: big-endian, most-significant byte at the lowest offset. -/
theorem test_memWrite_bigEndian : (Memory.memWrite [] 56 8 0x1C0) = [(62, 0x01), (63, 0xC0)] ∧
    Memory.memRead [(0, 0x61), (1, 0x62), (2, 0x63), (3, 0x80)] 0 4 = 0x61626380 := by decide
/-- 95 V17: `V` after rounds 0 and 1 of the "abc" block. -/
theorem test_two_rounds : (Pipeline.runRounds 2 (loadBlock (Memory.copyIn [] 0 abcBlock) iv)).v =
    #v[0x59D148C0, 0x7BF36AE2, 0x98BADCFE, 0x8990536D, 0x0116FC33] := by decide +kernel
/-- 95 V15, V17: `V` and the window after the TRANSFORM of the "abc" block; `T = 80`. -/
theorem test_transients_after_transform :
    let p := Pipeline.runRounds 80 (loadBlock (Memory.copyIn [] 0 abcBlock) iv)
    p.v = #v[0x42541B35, 0x5738D5E1, 0x21834873, 0x681E6DF6, 0xD8FDF6AD] ∧
    p.win = #v[0x7CD45C9D, 0x000F0000, 0xFB50753A, 0xEC6765E8, 0xBA3C2BE2, 0x0060C000, 0x3A37CD05, 0x458546F4,
      0xB8599DD6, 0x380A1A26, 0x01E02203, 0xE7CC3456, 0xE6E60B69, 0x00F60A00, 0x5795EF4F, 0x822E0879] ∧ p.t = 80 := by
  decide +kernel
/-- 95 V19, row 6: `compress` on all ones. -/
theorem test_compress_ones : compress #v[0xFFFFFFFF, 0xFFFFFFFF, 0xFFFFFFFF, 0xFFFFFFFF, 0xFFFFFFFF]
    (List.replicate 64 0xFF) = #v[0x3F48159B, 0x2DCE51FA, 0x8A1E930A, 0x02083B68, 0xEF70D6E8] := by decide +kernel
/-- 95 V15: schedule words 16, 31 and 79 of the "abc" block. -/
theorem test_schedule : (schedule abcBlock).getD 16 0 = 0xC2C4C700 ∧ (schedule abcBlock).getD 31 0 = 0x5898E048 ∧
    (schedule abcBlock).getD 79 0 = 0x822E0879 := by decide +kernel

/-! ### The commands, one step each (95 V12, V13, V19, V22, V24, V25) -/

/-- 95 V12, row 2: INIT in LIVE keeps the stale bytes. -/
theorem test_init_keeps_stale_bytes :
    let t := nextOr State.reset (step (machine (liveEngine iv 3 [0x78, 0x79, 0x7A]) [0x01000000] []))
    t.eng.count = 0 ∧ t.eng.h = iv ∧ t.eng.buf = [(0, 0x78), (1, 0x79), (2, 0x7A)] ∧ statusPort t = 0x01 := by
  decide +kernel
/-- The first step after RESET runs the word placed on the command port (40 R72: `status = 0x01`). -/
theorem test_placed_init_runs : statusPort (nextOr State.reset (step (State.reset.withFetchWord 32 0x01000000))) = 0x01 := by
  decide +kernel
/-- 95 V13: `COUNT = 2^64 - 64`, `H = IV`, the bytes 00 .. 3F: one TRANSFORM, `COUNT = 0`. -/
theorem test_update_wraps_and_transforms :
    let t := nextOr State.reset (step (machine (liveEngine iv (BitVec.ofNat 64 (2 ^ 64 - 64)) []) [0x02000040]
      ((List.range 64).map (BitVec.ofNat 8 ·))))
    t.eng.count = 0 ∧ t.eng.h = #v[0xB9AC757B, 0xBC297925, 0x2E227274, 0x06872F94, 0xCBEA56A1] := by decide +kernel
/-- 41 R77, worked example: `j = 62` and data 01 02 03. -/
theorem test_update_across_the_block_end :
    let t := nextOr State.reset (step (machine (liveEngine iv 62 []) [0x02000003] [0x01, 0x02, 0x03, 0x04]))
    t.eng.count = 65 ∧ t.eng.buf = [(0, 0x03), (62, 0x01), (63, 0x02)] ∧ t.eng.t = 80 ∧ t.ports.din = [0x04] := by
  decide +kernel
/-- 44 R108, worked example: FINAL after "abc"; the stale byte at offset 3 is overwritten (95 P6). -/
theorem test_final_abc :
    let t := nextOr State.reset (step (machine (liveEngine iv 3 [0x61, 0x62, 0x63, 0x77]) [0x03000000] []))
    t.eng.digest = #v[0xa9, 0x99, 0x3e, 0x36, 0x47, 0x06, 0x81, 0x6a, 0xba, 0x3e, 0x25, 0x71, 0x78, 0x50, 0xc2, 0x6c,
      0x9c, 0xd0, 0xd8, 0x9d] ∧ statusPort t = 0x02 ∧ t.eng.h = Engine.reset.h ∧ t.eng.buf = [] ∧ t.eng.bitlen = 0 := by
  decide +kernel
/-- 95 V21, `n = 56`: the padding spills into a second block. -/
theorem test_final_two_blocks :
    digestPort (nextOr State.reset (step (machine (liveEngine iv 56 (List.replicate 56 0x61)) [0x03000000] []))) =
      0xc2db330f6083854c99d4b5bfb6e8f29f201be699 := by decide +kernel
/-- 95 V24: UPDATE(3) after RESET; the data bytes are not accepted. -/
theorem test_update_in_void_faults :
    let t := nextOr State.reset (step (voidS [0x02000003] abc))
    statusPort t = 0x14 ∧ t.ports.din = abc := by decide +kernel
/-- 95 V24: a reserved word in LIVE keeps the open computation. -/
theorem test_reserved_word_in_live :
    let t := nextOr State.reset (step (machine (liveEngine iv 3 abc) [0x04000000] []))
    statusPort t = 0x0D ∧ t.eng.count = 3 ∧ t.eng.h = iv := by decide +kernel
/-- 95 V25, row 4: RESET inside a waiting UPDATE abandons it; the bytes not accepted stay. -/
theorem test_reset_inside_update :
    let t := nextOr State.reset (step (waitingS 60 abc).assertReset)
    t.eng = Engine.reset ∧ t.remaining = 0 ∧ t.ports.din = abc ∧ statusPort t = 0x00 := by decide +kernel
/-- 44 R113, 43 R107: the closed form on "abc" (95 V2). -/
theorem test_digestOf_abc : digestOf abc = #v[0xa9, 0x99, 0x3e, 0x36, 0x47, 0x06, 0x81, 0x6a, 0xba, 0x3e, 0x25, 0x71,
    0x78, 0x50, 0xc2, 0x6c, 0x9c, 0xd0, 0xd8, 0x9d] := by decide +kernel
/-- 41 R77 and R83 on one instance, `j = 5`, `LEN = 200` (95 V13): both forms agree on every element. -/
theorem test_chunked_agrees : (liveEngine iv 5 abc).updateChunked ((List.range 200).map (BitVec.ofNat 8 ·)) =
    (liveEngine iv 5 abc).absorbAll ((List.range 200).map (BitVec.ofNat 8 ·)) := by decide +kernel

/-! ### Witnesses of the statements' hypotheses, one for each clause -/

theorem witness_RotationMovesEveryBit : (0 < 1 ∧ 1 < 32) ∧ (0 < 31 ∧ 31 < 32) := by decide
theorem witness_DecodeInvertsEncode : (Instr.update 16777215).wellFormed = true ∧ Instr.init.wellFormed = true := by decide
theorem witness_DecodedCommandsAreTheirWords : decode 0x02FFFFFF = .instr (.update 16777215) := by decide
theorem witness_DecodingFollowsTheFields :
    ((0x01000000 : Word).extractLsb' 24 8 = 0x01 ∧ (0x01000000 : Word).extractLsb' 0 24 = 0) ∧
    ((0x02FFFFFF : Word).extractLsb' 24 8 = 0x02) ∧
    ((0x03000000 : Word).extractLsb' 24 8 = 0x03 ∧ (0x03000000 : Word).extractLsb' 0 24 = 0) ∧
    (¬((0x01000001 : Word).extractLsb' 24 8 = 0x01 ∧ (0x01000001 : Word).extractLsb' 0 24 = 0) ∧
      (0x01000001 : Word).extractLsb' 24 8 ≠ 0x02 ∧ (0x01000001 : Word).extractLsb' 24 8 ≠ 0x03) ∧
    ((0x00FFFFFF : Word).extractLsb' 24 8 = 0x00 ∧ (0x04000000 : Word).extractLsb' 24 8 = 0x04) := by decide
theorem witness_StepRunsTheDecodedCommand : (liveS [0x02000003] abc).ports.rst = false ∧
    cmdReady (liveS [0x02000003] abc) = true ∧ (liveS [0x02000003] abc).ports.cmd = 0x02000003 :: [] ∧
    decode 0x02000003 = .instr (.update 3) := by decide
theorem witness_PlacedWordIsExecuted : State.reset.eng.fault = false ∧
    decodeTableWord 32 0x02FFFFFF = some (.update 16777215) ∧ 0x02FFFFFF < 2 ^ 32 := by decide
theorem witness_IdleEngineWaits : (voidS [] abc).ports.rst = false ∧ cmdReady (voidS [] abc) = true ∧
    (voidS [] abc).ports.cmd = [] := by decide
/-- A step that takes a word and data, and one that takes data for a waiting UPDATE. -/
theorem witness_PortsAcceptOnlyWhenReady :
    (∃ t, step (liveS [0x02000003] abc) = .next t ∧ t.ports.din ≠ (liveS [0x02000003] abc).ports.din) ∧
    ∃ t, step (waitingS 2 abc) = .next t ∧ t.ports.din ≠ (waitingS 2 abc).ports.din :=
  ⟨⟨_, rfl, by decide⟩, ⟨_, rfl, by decide⟩⟩
theorem witness_DigestPortLayout : portsSpecified (voidS [] []) = true ∧ portsSpecified (haltedS []) = true ∧
    cmdReady (liveS [] []) = true ∧ (liveS [] []).eng.live = true ∧ ∃ t, exec .final (liveS [] []) = .next t :=
  ⟨by decide, by decide, by decide, by decide, _, rfl⟩
theorem witness_StatusPortLayout : portsSpecified (liveS [] []) = true ∧ portsSpecified (haltedS []) = true := by decide
/-- The whole buffer, and the length field at 56..63. -/
theorem witness_BufferReadsAndWrites : (0 : Offset).toNat + 64 ≤ 64 ∧ (56 : Offset).toNat + 8 ≤ 64 := by decide
theorem witness_InitStartsAComputation : cmdReady (voidS [] []) = true ∧ cmdReady (liveS [] []) = true ∧
    (haltedS []).eng.fault = true := by decide
theorem witness_InitTwiceAndEmptyStream : cmdReady (liveS [] []) = true := by decide
theorem witness_RestartForgetsThePast : cmdReady (voidS [] []) = true ∧
    cmdReady (machine (liveEngine #v[1, 2, 3, 4, 5] 62 abc) [] []) = true ∧ chunksFit [abc, []] := by
  refine ⟨by decide, by decide, ?_⟩
  unfold chunksFit
  decide
/-- All the data supplied in LIVE, to the last byte; and VOID. -/
theorem witness_UpdateIsTheChunkedPseudocode : cmdReady (liveS [] abc) = true ∧ (liveS [] abc).eng.live = true ∧
    3 ≤ (liveS [] abc).ports.din.length ∧ cmdReady (voidS [] abc) = true ∧ (voidS [] abc).eng.live = false := by decide
/-- A step that stores three bytes, below a block's end and up to it. -/
theorem witness_UpdateFrame : (liveS [] abc).eng.live = true ∧ (∃ t, exec (.update 3) (liveS [] abc) = .next t) ∧
    (pendingOffset (liveS [] abc).eng.count).toNat + min 3 (liveS [] abc).ports.din.length ≤ 63 ∧
    (∀ k, k < min 3 (liveS [] abc).ports.din.length →
      (3 : Offset) ≠ pendingOffset (liveS [] abc).eng.count + BitVec.ofNat 6 k) ∧
    (∃ t, exec (.update 1) (machine (liveEngine iv 62 []) [] abc) = .next t) ∧
    (pendingOffset (liveEngine iv 62 []).count).toNat + min 1 abc.length ≤ 63 :=
  ⟨by decide, ⟨_, rfl⟩, by decide, by decide, ⟨_, rfl⟩, by decide⟩
theorem witness_ZeroLengthUpdate : cmdReady (liveS [] []) = true ∧ (liveS [] []).eng.live = true ∧
    cmdReady (voidS [] []) = true ∧ (voidS [] []).eng.live = false := by decide
theorem witness_UpdateCountsItsBytes :
    let s := machine (liveEngine iv (BitVec.ofNat 64 (2 ^ 64 - 1)) []) [] abc
    cmdReady s = true ∧ s.eng.live = true ∧ 3 ≤ s.ports.din.length := by decide
theorem witness_SplittingTheStreamChangesNothing : cmdReady (liveS [] []) = true ∧ (liveS [] []).eng.live = true ∧
    chunksFit [abc] ∧ chunksFit [[0x61], [], [0x62, 0x63]] ∧ [abc].flatten = [[0x61], [], [0x62, 0x63]].flatten := by
  refine ⟨by decide, by decide, ?_, ?_, by decide⟩ <;> unfold chunksFit <;> decide
theorem witness_OpenStreamState : cmdReady (voidS [] []) = true ∧ chunksFit [abc] := by
  refine ⟨by decide, ?_⟩
  unfold chunksFit
  decide
theorem witness_ShortSupplyWaits : cmdReady (liveS [] abc) = true ∧ (liveS [] abc).eng.live = true ∧
    (liveS [] abc).ports.din.length < 4 := by decide
theorem witness_WaitingUpdateResumes : (liveS [] abc).ports.rst = false ∧ cmdReady (liveS [] abc) = true ∧
    (liveS [] abc).eng.live = true ∧ (liveS [] abc).ports.din.length < 5 ∧
    5 ≤ (liveS [] abc).ports.din.length + abc.length := by decide
/-- An UPDATE that waits for five bytes and is given none, three, or exactly the five. -/
theorem witness_WaitingUpdateAbsorbsWhatComes :
    (waitingS 5 abc).ports.rst = false ∧ (waitingS 5 abc).eng.fault = false ∧ (waitingS 5 abc).remaining ≠ 0 ∧
    0 < abc.length ∧ abc.length < (waitingS 5 abc).remaining ∧
    (waitingS 5 []).ports.rst = false ∧ (waitingS 5 []).eng.fault = false ∧ (waitingS 5 []).remaining ≠ 0 ∧
    (waitingS 3 abc).ports.rst = false ∧ (waitingS 3 abc).eng.fault = false ∧ (waitingS 3 abc).remaining = abc.length := by
  decide
/-- Two machines that differ in their data only. -/
theorem witness_ControlIsIndependentOfTheData :
    (liveS [0x02000003] abc).SameControl (liveS [0x02000003] [0x00, 0xFF, 0x80]) :=
  ⟨⟨rfl, rfl, rfl, rfl, rfl, rfl, rfl⟩, rfl, rfl, rfl, rfl, rfl⟩
theorem witness_ScheduleRecurrence : 79 ≤ 79 ∧ 15 ≤ 15 ∧ (16 ≤ 16 ∧ 16 ≤ 79) ∧ (16 ≤ 79 ∧ 79 ≤ 79) := by decide
/-- At `t = 16` slots 0 to 15 hold `W_0 .. W_15`; at `t = 0` the block words are all unused; `t = 79` is the last round. -/
theorem witness_WindowHoldsTheSchedule : (16 ≤ 79 ∧ 16 - 16 ≤ 0 ∧ 0 < 16) ∧ (0 ≤ 79 ∧ 0 ≤ 15 ∧ 15 ≤ 15) ∧
    (79 ≤ 79 ∧ 79 - 16 ≤ 63 ∧ 78 < 79) := by decide
theorem witness_PhaseSelectsFunctionAndConstant : (19 ≤ 79 ∧ 19 ≤ 19) ∧ (20 ≤ 20 ∧ 39 ≤ 39) ∧ (40 ≤ 40 ∧ 59 ≤ 59) ∧
    (60 ≤ 60 ∧ 79 ≤ 79) := by decide
theorem witness_RotatingIndicesEqualShuffling :
    ({ v := iv, win := Engine.reset.win, t := 79 } : Pipeline).t.toNat = 79 ∧ 79 ≤ 79 := by decide
theorem witness_DigestOfTheStream : cmdReady (haltedS [] |>.takeReset) = true ∧ chunksFit [abc, abc] := by
  refine ⟨by decide, ?_⟩
  unfold chunksFit
  decide
theorem witness_FinalAsAFunction : cmdReady (liveS [] []) = true ∧ (liveS [] []).eng.live = true := by decide
theorem witness_FinalWipesTheState : cmdReady (liveS [] abc) = true ∧ (liveS [] abc).eng.live = true := by decide
theorem witness_FinalTwiceFaults : (liveS [] []).eng.live = true ∧ ∃ t, exec .final (liveS [] []) = .next t :=
  ⟨by decide, _, rfl⟩
theorem witness_LawfulCommandsNeverFault : cmdReady State.reset = true ∧
    (∀ c ∈ digestCommands [abc], c.supplied = true) ∧
    lawful State.reset.eng.live ((digestCommands [abc]).map Command.instr) = true := by decide
theorem witness_ReservedWordFaults : (liveS [0x03000014] []).ports.rst = false ∧ cmdReady (liveS [0x03000014] []) = true ∧
    (liveS [0x03000014] []).ports.cmd = 0x03000014 :: [] ∧ decode 0x03000014 = .reserved (.nonzeroLen 3 20) := by decide
theorem witness_ProtocolFaultWithoutInit : cmdReady (voidS [] abc) = true ∧ (voidS [] abc).eng.live = false := by decide
/-- Each of the two faults, taken by a step. -/
theorem witness_FaultEntryIsPrecise :
    (∃ t, step (voidS [0x03000000] []) = .next t ∧ (voidS [0x03000000] []).eng.fault = false ∧ t.eng.fault = true) ∧
    ∃ t, step (liveS [0x00000000] []) = .next t ∧ (liveS [0x00000000] []).eng.fault = false ∧ t.eng.fault = true :=
  ⟨⟨_, rfl, by decide, by decide⟩, ⟨_, rfl, by decide, by decide⟩⟩
theorem witness_HaltedAcceptsNothing : (haltedS [0x01000000]).eng.fault = true ∧
    (haltedS [0x01000000]).ports.rst = false := by decide
/-- RESET out of HALTED; an idle step; a waiting UPDATE; and each word in LIVE and in VOID. -/
theorem witness_LifecycleTransitions :
    (∃ t, step (haltedS []).assertReset = .next t) ∧ (∃ t, step (voidS [] []) = .next t) ∧
    (∃ t, step (waitingS 2 []) = .next t) ∧ (∃ t, step (voidS [0x01000000] []) = .next t) ∧
    (∃ t, step (liveS [0x02000000] []) = .next t) ∧ (∃ t, step (voidS [0x02000000] []) = .next t) ∧
    (∃ t, step (liveS [0x03000000] []) = .next t) ∧ (∃ t, step (voidS [0x03000000] []) = .next t) ∧
    (∃ t, step (liveS [0xFFFFFFFF] []) = .next t) ∧ condition (liveS [] []).eng = .live ∧
    condition (voidS [] []).eng = .void :=
  ⟨⟨_, rfl⟩, ⟨_, rfl⟩, ⟨_, rfl⟩, ⟨_, rfl⟩, ⟨_, rfl⟩, ⟨_, rfl⟩, ⟨_, rfl⟩, ⟨_, rfl⟩, ⟨_, rfl⟩, by decide, by decide⟩
/-- RESET; FINAL accepted in LIVE; and, where neither happens, INIT and an UPDATE that waits with FINAL queued behind it. -/
theorem witness_OnlyFinalAndResetWriteTheDigest :
    (∃ t, step (haltedS []).assertReset = .next t) ∧ (∃ t, step (liveS [0x03000000] []) = .next t) ∧
    (∃ t, step (liveS [0x01000000] []) = .next t) ∧ ∃ t, step ((waitingS 5 abc).present 0x03000000) = .next t :=
  ⟨⟨_, rfl⟩, ⟨_, rfl⟩, ⟨_, rfl⟩, _, rfl⟩
/-- RESET in HALTED, and RESET where a digest is held. -/
theorem witness_ResetZeroesEverything : (haltedS [0x01000000]).assertReset.ports.rst = true ∧
    (∃ t, step (haltedS []).assertReset = .next t ∧ (haltedS []).assertReset.eng.fault = true) ∧
    ∃ s t, step s = .next t ∧ s.eng.dvalid = true ∧ t.eng.dvalid = false :=
  ⟨by decide, ⟨_, rfl, by decide⟩,
    (machine { Engine.reset with dvalid := true } [] []).assertReset, _, rfl, by decide, by decide⟩
/-- An open stream with a word presented, and an UPDATE that waits for more. -/
theorem witness_StepKeepsTheInvariant : (liveS [0x02000003] abc).Inv ∧ (waitingS 16777215 abc).Inv ∧
    (∃ t, step (liveS [0x02000003] abc) = .next t) ∧ ∃ t, step (waitingS 16777215 abc) = .next t := by
  refine ⟨?_, ?_, ⟨_, rfl⟩, ⟨_, rfl⟩⟩ <;>
    exact ⟨by decide, by decide, by decide, by decide, by decide, by decide, by decide, by decide, by decide⟩

end Sys2Proof.Tests
end

section
/-! Arithmetic on `COUNT` (00 R13, R14): the bit length, and UPDATE as its counter. -/

namespace Sys2Proof.Machine

/-! ### The bit length -/

@[simp] theorem bitLength_toNat (c : BitVec 64) : (bitLength c).toNat = c.toNat * 8 % 2 ^ 64 :=
  BitVec.toNat_ofNat ..

/-- The product by 8 is a shift by three bits, so `COUNT[63:61]` is lost (00 R14). -/
theorem bitLength_eq_append (c : BitVec 64) : bitLength c = c.extractLsb' 0 61 ++ (0 : BitVec 3) := by
  apply BitVec.eq_of_toNat_eq
  simp only [bitLength_toNat, BitVec.toNat_append, BitVec.extractLsb'_toNat, Nat.shiftRight_zero,
    BitVec.ofNat_eq_ofNat, BitVec.toNat_ofNat, Nat.zero_mod, Nat.or_zero, Nat.shiftLeft_eq]
  omega

/-- Settles O2: the value and the layout are the two lemmas above, the corner cases are closed words. -/
theorem bitLengthDropsTheTopBits : Obligations.BitLengthDropsTheTopBits :=
  ⟨fun c => ⟨bitLength_toNat c, bitLength_eq_append c⟩, by decide, by decide, by decide⟩

/-! ### UPDATE in LIVE -/

theorem requiringLive_live {s : State} (h : s.eng.live = true)
    (body : State → Host.Outcome State Fault Refusal) : requiringLive s body = body s := by
  simp [requiringLive, h]

/-- An accepted UPDATE in LIVE takes the bytes that are offered, however many are presented (41 R77, R86). -/
theorem exec_update_live {s : State} (hr : cmdReady s = true) (hl : s.eng.live = true) (len : Nat) :
    exec (.update len) s = .next (State.absorbOffered { s with remaining := len }) := by
  rw [exec, execUpdate, accepting_ready hr, requiringLive_live hl]

/-- With `LEN` bytes presented, exactly `LEN` are accepted (30 R62). -/
theorem acceptable_length_of_le {s : State} (h : s.remaining ≤ s.ports.din.length) :
    (acceptable s).length = s.remaining := by
  rw [acceptable, List.length_take, Nat.min_eq_left h]

/-- Absorbing counts the accepted bytes modulo 2^64 (00 R13, 41 R83). -/
theorem State.absorbOffered_count_toNat (s : State) :
    s.absorbOffered.eng.count.toNat = (s.eng.count.toNat + (acceptable s).length) % 2 ^ 64 := by
  rw [State.absorbOffered_eng, Engine.absorbAll_count, BitVec.toNat_add, BitVec.toNat_ofNat, Nat.add_mod_mod]

/-- Absorbing leaves the engine ready exactly when it has taken no fault and no byte is missing (30 R58). -/
theorem State.cmdReady_absorbOffered_iff (s : State) :
    cmdReady s.absorbOffered = true ↔ s.eng.fault = false ∧ s.remaining ≤ s.ports.din.length := by
  rw [cmdReady_iff, State.absorbOffered_eng, Engine.absorbAll_fault, State.absorbOffered_remaining,
    Nat.sub_eq_zero_iff_le]

/-- Settles O22: UPDATE absorbs exactly the `LEN` presented bytes, and absorbing a byte adds one to `COUNT` and writes no
flag. -/
theorem updateCountsItsBytes : Obligations.UpdateCountsItsBytes := by
  unfold Obligations.UpdateCountsItsBytes
  intro s len hr hl hlen
  have hf : s.eng.fault = false := ((cmdReady_iff s).1 hr).1
  have htaken : (acceptable { s with remaining := len }).length = len := acceptable_length_of_le hlen
  refine ⟨_, exec_update_live hr hl len, ?ready, ?count, ?live, ?dvalid, ?fault, ?fcode⟩
  case ready => exact (State.cmdReady_absorbOffered_iff _).2 ⟨hf, hlen⟩
  case count => rw [State.absorbOffered_count_toNat, htaken]
  case live => exact Engine.absorbAll_live ..
  case dvalid => exact Engine.absorbAll_dvalid ..
  case fault => exact (Engine.absorbAll_fault ..).trans hf
  case fcode => exact Engine.absorbAll_fcode ..

end Sys2Proof.Machine
end

section
/-! Big-endian values (20 R43, R48), and the two output ports (30 R63, R64). -/

namespace Sys2Proof.Machine

/-! ### Big-endian values -/

theorem beValue_cons (b : Byte) (bs : List Byte) :
    beValue (b :: bs) = b.toNat * 2 ^ (8 * bs.length) + beValue bs := rfl

theorem beValue_append (xs ys : List Byte) :
    beValue (xs ++ ys) = beValue xs * 2 ^ (8 * ys.length) + beValue ys := by
  induction xs with
  | nil => simp [beValue]
  | cons x xs ih =>
    rw [List.cons_append, beValue_cons, beValue_cons, ih, List.length_append]
    ring

/-- The digest port's fold (30 R63) is the big-endian value, behind whatever was accumulated. -/
theorem foldl_bytes_eq_beValue (bs : List Byte) (acc : Nat) :
    bs.foldl (fun acc b => acc * 256 + b.toNat) acc = acc * 2 ^ (8 * bs.length) + beValue bs := by
  induction bs generalizing acc with
  | nil => simp [beValue]
  | cons b bs ih =>
    rw [List.foldl_cons, ih, beValue_cons, List.length_cons]
    ring

/-- The image of the value of a byte string is the string (20 R48, R49). -/
theorem beByte_beValue (bs : List Byte) {j : Nat} (hj : j < bs.length) :
    beByte bs.length (beValue bs) j = bs[j] := by
  induction bs generalizing j with
  | nil => cases hj
  | cons b bs ih =>
    rw [beByte, beValue_cons, List.length_cons, Nat.add_sub_cancel]
    cases j with
    | zero =>
      rw [Nat.sub_zero, Nat.add_comm, Nat.add_mul_div_right _ _ (by positivity), Nat.div_eq_of_lt (beValue_lt bs)]
      simp
    | succ j =>
      have hj : j < bs.length := by simpa using hj
      have hpow : 2 ^ (8 * bs.length) = 2 ^ (8 * j) * 2 ^ 8 * 2 ^ (8 * (bs.length - (j + 1))) := by
        rw [← Nat.pow_add, ← Nat.pow_add]; congr 1; omega
      rw [List.getElem_cons_succ, ← ih hj, beByte, Nat.sub_sub, Nat.add_comm 1 j, hpow, ← Nat.mul_assoc,
        Nat.add_comm, Nat.add_mul_div_right _ _ (by positivity), ← Nat.mul_assoc]
      apply BitVec.eq_of_toNat_eq
      rw [BitVec.toNat_ofNat, BitVec.toNat_ofNat, Nat.add_mul_mod_self_right]

/-- The four bytes of a word, the most-significant first (44 R117). -/
def wordBytes (w : Word) : List Byte := [wordByte w 0, wordByte w 1, wordByte w 2, wordByte w 3]

@[simp] theorem wordBytes_length (w : Word) : (wordBytes w).length = 4 := rfl

theorem serialize_toList (h : Vector Word 5) :
    (serialize h).toList = wordBytes h[0] ++ wordBytes h[1] ++ wordBytes h[2] ++ wordBytes h[3] ++ wordBytes h[4] := rfl

theorem wordByte_toNat (w : Word) (k : Nat) : (wordByte w k).toNat = w.toNat / 2 ^ (24 - 8 * k) % 2 ^ 8 := by
  rw [wordByte, BitVec.extractLsb'_toNat, Nat.shiftRight_eq_div_pow]

@[simp] theorem beValue_wordBytes (w : Word) : beValue (wordBytes w) = w.toNat := by
  have hw : w.toNat < 2 ^ 32 := w.isLt
  simp only [wordBytes, beValue, wordByte_toNat, List.length_cons, List.length_nil]
  omega

/-- A concatenation of words reads as one big-endian number. -/
theorem toNat_append_word {n : Nat} (x : BitVec n) (w : Word) : (x ++ w).toNat = x.toNat * 2 ^ 32 + w.toNat := by
  rw [BitVec.toNat_append, ← Nat.shiftLeft_add_eq_or_of_lt w.isLt, Nat.shiftLeft_eq]

/-! ### The digest port -/

theorem digestPort_specified {s : State} (h : portsSpecified s = true) : digestPort s = digestWord s.eng := by
  simp [digestPort, h]

theorem digestWord_toNat (e : Engine) : (digestWord e).toNat = beValue e.digest.toList := by
  have hlt : beValue e.digest.toList < 2 ^ 160 := by simpa using beValue_lt e.digest.toList
  rw [digestWord, foldl_bytes_eq_beValue, Nat.zero_mul, Nat.zero_add, BitVec.toNat_ofNat, Nat.mod_eq_of_lt hlt]

/-- 30 R63, byte by byte. -/
theorem digestWord_extract (e : Engine) (j : Fin 20) :
    (digestWord e).extractLsb' (152 - 8 * j.val) 8 = e.digest[j] := by
  have hj : j.val < e.digest.toList.length := by simp
  have hshift : 152 - 8 * j.val = 8 * (20 - 1 - j.val) := by omega
  calc (digestWord e).extractLsb' (152 - 8 * j.val) 8
      = beByte e.digest.toList.length (beValue e.digest.toList) j := by
        rw [BitVec.extractLsb', digestWord_toNat, hshift, Nat.shiftRight_eq_div_pow, Vector.length_toList, beByte]
    _ = e.digest[j] := by rw [beByte_beValue _ hj]; simp

theorem digestWord_of_serialize {e : Engine} {h : Vector Word 5} (hd : e.digest = serialize h) :
    digestWord e = h[0] ++ h[1] ++ h[2] ++ h[3] ++ h[4] := by
  apply BitVec.eq_of_toNat_eq
  simp only [digestWord_toNat, hd, serialize_toList, beValue_append, beValue_wordBytes, toNat_append_word,
    wordBytes_length]

/-! ### FINAL in LIVE -/

theorem Engine.finalize_digest (e : Engine) : e.finalize.digest = serialize e.padded.transform.h := rfl

/-- Finalizing the engine takes no fault (44 R108, R118). -/
theorem Engine.finalize_fault (e : Engine) : e.finalize.fault = e.fault := by
  simp [Engine.finalize, Engine.padded, Engine.padZeros_fault, Engine.absorb_fault]

/-- An accepted FINAL in LIVE finalizes the engine and changes nothing else (44 R108). -/
theorem exec_final_live {s : State} (hr : cmdReady s = true) (hl : s.eng.live = true) :
    exec .final s = .next { s with eng := s.eng.finalize } := by
  rw [exec, execFinal, accepting_ready hr, requiringLive_live hl]

theorem portsSpecified_of_cmdReady {s : State} (h : cmdReady s = true) : portsSpecified s = true := by
  simp [portsSpecified, h]

/-- After a FINAL the engine is ready again (30 R58), so its ports are specified. -/
theorem cmdReady_finalize (s : State) : cmdReady { s with eng := s.eng.finalize } = cmdReady s := by
  rw [cmdReady, Engine.finalize_fault, cmdReady]

/-- Settles O12: the port is the big-endian value of `DIGEST`, and that of `ser(H)` is the concatenation of the words. -/
theorem digestPortLayout : Obligations.DigestPortLayout := by
  refine ⟨fun s hs j => ?byte, fun s t hr hl ht => ?final⟩
  case byte => rw [digestPort_specified hs, digestWord_extract]
  case final =>
    cases (exec_final_live hr hl).symm.trans ht
    have hready := (cmdReady_finalize s).trans hr
    rw [digestPort_specified (portsSpecified_of_cmdReady hready)]
    exact digestWord_of_serialize (Engine.finalize_digest s.eng)

/-! ### The status port -/

theorem statusPort_specified {s : State} (h : portsSpecified s = true) : statusPort s = statusByte s.eng := by
  simp [statusPort, h]

theorem getLsbD_append_flagBit_zero {n : Nat} (x : BitVec n) (b : Bool) : (x ++ flagBit b).getLsbD 0 = b := by
  rw [BitVec.getLsbD_append, if_pos Nat.zero_lt_one]
  simp [flagBit]

theorem getLsbD_append_flagBit_succ {n : Nat} (x : BitVec n) (b : Bool) (i : Nat) :
    (x ++ flagBit b).getLsbD (i + 1) = x.getLsbD i := by
  simp [BitVec.getLsbD_append]

theorem statusByte_live (e : Engine) : (statusByte e).getLsbD 0 = e.live :=
  getLsbD_append_flagBit_zero ..

theorem statusByte_dvalid (e : Engine) : (statusByte e).getLsbD 1 = e.dvalid :=
  (getLsbD_append_flagBit_succ ..).trans (getLsbD_append_flagBit_zero ..)

theorem statusByte_fault (e : Engine) : (statusByte e).getLsbD 2 = e.fault :=
  (getLsbD_append_flagBit_succ ..).trans <| (getLsbD_append_flagBit_succ ..).trans (getLsbD_append_flagBit_zero ..)

/-- Above the three flags stand the three zero bits and `FCODE`. -/
theorem statusByte_extract (e : Engine) (i n : Nat) :
    (statusByte e).extractLsb' (i + 3) n = ((0 : BitVec 3) ++ e.fcode).extractLsb' i n := by
  simp only [statusByte, BitVec.extractLsb'_append_eq_of_le (Nat.le_add_left 1 _), Nat.add_sub_cancel]

/-- Settles O13: each flag is a one-bit vector at the low end of the byte, and above the three stand `FCODE` and zeros. -/
theorem statusPortLayout : Obligations.StatusPortLayout := by
  intro s hs
  rw [statusPort_specified hs]
  refine ⟨statusByte_live _, statusByte_dvalid _, statusByte_fault _, ?fcode, ?zero⟩
  case fcode => rw [statusByte_extract _ 0, BitVec.extractLsb'_append_eq_right]
  case zero => rw [statusByte_extract _ 2, BitVec.extractLsb'_append_eq_left]

end Sys2Proof.Machine
end

section
/-! INIT (40 R72). -/

namespace Sys2Proof.Machine

/-- An accepted INIT starts a computation in the engine and changes nothing else of the machine (40 R72). -/
theorem exec_init_ready {s : State} (hr : cmdReady s = true) : exec .init s = .next { s with eng := s.eng.init } := by
  rw [exec, execInit, accepting_ready hr]

/-- In HALTED no command is accepted (30 R58, 60 R131). -/
theorem cmdReady_of_fault {s : State} (hf : s.eng.fault = true) : cmdReady s = false := by
  simp [cmdReady, hf]

/-- Starting a computation takes no fault and leaves the engine ready (30 R58). -/
theorem cmdReady_init (s : State) : cmdReady { s with eng := s.eng.init } = cmdReady s := rfl

/-- Settles O16: INIT is `Engine.init`, which is the record update of the statement; the engine is ready after it, so in
the worked example the ports show the status byte and the digest of 10 R40. -/
theorem initStartsAComputation : Obligations.InitStartsAComputation := by
  have hready : cmdReady State.reset = true := by decide
  have hports : portsSpecified { State.reset with eng := State.reset.eng.init } = true :=
    portsSpecified_of_cmdReady ((cmdReady_init State.reset).trans hready)
  refine ⟨fun s => ⟨exec_init_ready, cmdReady_of_fault⟩, ?word, _, exec_init_ready hready, ?status, ?digest, ?buf⟩
  case word => decide
  case status => rw [statusPort_specified hports]; decide
  case digest => rw [digestPort_specified hports]; decide
  case buf => rfl

end Sys2Proof.Machine
end

section
/-! UPDATE in the source's chunked form (41 R77), and byte by byte, as the engine executes it (41 R82). -/

namespace Sys2Proof.Machine

/-! ### The chunked pseudocode absorbs its bytes one by one

The pseudocode advances `COUNT` before it copies, ABSORB byte by byte, so the two are compared under one count `c`. -/

/-- Copying bytes to the pending offset stores them; the count is no part of it (41 R77). -/
theorem Engine.copyIn_pendingOffset (e : Engine) (bs : List Byte) (c : BitVec 64) :
    Engine.copyIn { e with count := c } (pendingOffset e.count).toNat bs = { e.stored bs with count := c } := by
  rw [Engine.copyIn, BitVec.ofNat_toNat, BitVec.setWidth_eq, Engine.stored]

/-- Bytes that do not fill the block: copying them is ABSORB of each (41 R77 step 4). -/
theorem Engine.copyIn_eq_absorbAll {e : Engine} {j : Nat} {bs : List Byte} (c : BitVec 64)
    (hj : (pendingOffset e.count).toNat = j) (h : j + bs.length ≤ 63) :
    Engine.copyIn { e with count := c } j bs = { e.absorbAll bs with count := c } := by
  subst hj
  rw [Engine.copyIn_pendingOffset, Engine.absorbAll_short e bs h]

/-- Bytes that fill the block exactly: copying them and then TRANSFORM is ABSORB of each (41 R77 step 3). -/
theorem Engine.transform_copyIn_eq_absorbAll {e : Engine} {j : Nat} {bs : List Byte} (c : BitVec 64) (hb : bs ≠ [])
    (hj : (pendingOffset e.count).toNat = j) (h : j + bs.length = 64) :
    (Engine.copyIn { e with count := c } j bs).transform = { e.absorbAll bs with count := c } := by
  subst hj
  rw [Engine.copyIn_pendingOffset, Engine.transform_withCount, Engine.absorbAll_full e bs hb h]

/-- Bytes that fill the block exactly leave the next block empty (10 R30). -/
theorem Engine.pendingOffset_absorbAll_full {e : Engine} {bs : List Byte}
    (h : (pendingOffset e.count).toNat + bs.length = 64) : (pendingOffset (e.absorbAll bs).count).toNat = 0 := by
  rw [Engine.absorbAll_count, pendingOffset_add_toNat, h]

/-- From an empty block, the loop of step 3 and the copy after it absorb the bytes that are left (41 R77). -/
theorem Engine.fillLoop_eq_absorbAll (d : List Byte) (c : BitVec 64) {fuel i : Nat} {e : Engine}
    (hoff : (pendingOffset e.count).toNat = 0) (hfuel : d.length < i + 64 * (fuel + 1)) :
    (Engine.fillLoop d fuel i { e with count := c }).2.copyIn 0
        (d.drop (Engine.fillLoop d fuel i { e with count := c }).1) =
      { e.absorbAll (d.drop i) with count := c } := by
  induction fuel generalizing i e with
  | zero =>
    rw [Engine.fillLoop]
    exact Engine.copyIn_eq_absorbAll c hoff (by rw [List.length_drop]; omega)
  | succ fuel ih =>
    rw [Engine.fillLoop]
    split
    case isFalse hi => exact Engine.copyIn_eq_absorbAll c hoff (by rw [List.length_drop]; omega)
    case isTrue hi =>
      have hblock : ((d.drop i).take 64).length = 64 := by rw [List.length_take, List.length_drop]; omega
      have hrest : d.drop i = (d.drop i).take 64 ++ d.drop (i + 64) := by
        rw [← List.drop_drop, List.take_append_drop]
      rw [Engine.transform_copyIn_eq_absorbAll c (List.ne_nil_of_length_pos (by omega)) hoff (by omega),
        ih (Engine.pendingOffset_absorbAll_full (by omega)) (by omega), ← Engine.absorbAll_append, ← hrest]

/-- The source's chunked UPDATE is ABSORB of each of its bytes (41 R77, R83). -/
theorem Engine.updateChunked_eq_absorbAll (e : Engine) (d : List Byte) : e.updateChunked d = e.absorbAll d := by
  have hcount : { e.absorbAll d with count := e.count + BitVec.ofNat 64 d.length } = e.absorbAll d := by
    rw [← Engine.absorbAll_count]
  unfold Engine.updateChunked
  dsimp only
  split
  case isFalse hshort => rw [Engine.copyIn_eq_absorbAll _ rfl (by omega), hcount]
  case isTrue hlong =>
    have hoff : (pendingOffset e.count).toNat < 64 := (pendingOffset e.count).isLt
    have hfill : (pendingOffset e.count).toNat + (d.take (64 - (pendingOffset e.count).toNat)).length = 64 := by
      rw [List.length_take]; omega
    rw [Engine.transform_copyIn_eq_absorbAll _ (List.ne_nil_of_length_pos (by omega)) rfl hfill,
      Engine.fillLoop_eq_absorbAll d _ (Engine.pendingOffset_absorbAll_full hfill) (by omega),
      ← Engine.absorbAll_append, List.take_append_drop, hcount]

/-! ### UPDATE with its data supplied, and in VOID -/

/-- With all its data presented an UPDATE completes: it absorbs its bytes and leaves the later ones on the channel
(30 R62). -/
theorem State.absorbOffered_of_le {s : State} (h : s.remaining ≤ s.ports.din.length) :
    s.absorbOffered = { s with
      eng := s.eng.absorbAll (acceptable s), remaining := 0,
      ports := { s.ports with din := s.ports.din.drop s.remaining } } := by
  rw [State.absorbOffered, Nat.sub_eq_zero_of_le h, if_pos rfl]

theorem requiringLive_void {s : State} (h : s.eng.live = false)
    (body : State → Host.Outcome State Fault Refusal) : requiringLive s body = .next (s.raise .protocolFault) := by
  simp [requiringLive, h]

/-- An UPDATE accepted in VOID takes `ProtocolFault`, whatever its length (60 R128). -/
theorem exec_update_void {s : State} (hr : cmdReady s = true) (hl : s.eng.live = false) (len : Nat) :
    exec (.update len) s = .next (s.raise .protocolFault) := by
  rw [exec, execUpdate, accepting_ready hr, requiringLive_void hl]

/-- Settles O19: the engine absorbs the presented bytes, and that is what the pseudocode does with them; ABSORB writes
neither `DIGEST`, `BITLEN` nor a flag. -/
theorem updateIsTheChunkedPseudocode : Obligations.UpdateIsTheChunkedPseudocode := by
  refine ⟨fun s len hr => ⟨fun hl hlen => ?live, fun hl => exec_update_void hr hl len⟩, fun e d => ?unwritten⟩
  case live =>
    have hidle : s.remaining = 0 := ((cmdReady_iff s).1 hr).2
    rw [exec_update_live hr hl, State.absorbOffered_of_le hlen, Engine.updateChunked_eq_absorbAll, hidle]
    rfl
  case unwritten =>
    rw [Engine.updateChunked_eq_absorbAll]
    exact ⟨Engine.absorbAll_digest .., Engine.absorbAll_bitlen .., Engine.absorbAll_live ..,
      Engine.absorbAll_dvalid .., Engine.absorbAll_fault .., Engine.absorbAll_fcode ..⟩

end Sys2Proof.Machine
end

section
/-! The schedule of a block (42 R89). -/

namespace Sys2Proof.Machine

/-! ### The growth of the schedule list -/

/-- The word a step appends stays where it was put, however often the list is extended after it. -/
theorem extend_getD_length_add (ms : List Word) {n k : Nat} (h : n < k) :
    (extend ms k).getD (ms.length + n) 0 = nextWord (extend ms n) := by
  obtain ⟨m, rfl⟩ := Nat.exists_eq_add_of_lt h
  rw [Nat.add_right_comm, extend_getD_add ms (n + 1) m _ (by omega), extend, ← extend_length]
  simp

/-- The recurrence reads earlier words only, which are those of every longer list. -/
theorem nextWord_extend {ms : List Word} {n k : Nat} (hms : ms.length = 16) (h : n ≤ k) :
    nextWord (extend ms n) =
      rotl ((extend ms k).getD (16 + n - 3) 0 ^^^ (extend ms k).getD (16 + n - 8) 0 ^^^
        (extend ms k).getD (16 + n - 14) 0 ^^^ (extend ms k).getD (16 + n - 16) 0) 1 := by
  obtain ⟨m, rfl⟩ := Nat.exists_eq_add_of_le h
  have hearlier (d : Nat) (hd : 0 < d) :
      (extend ms (n + m)).getD (16 + n - d) 0 = (extend ms n).getD (16 + n - d) 0 :=
    extend_getD_add ms n m _ (by omega)
  rw [nextWord, extend_length, hms, hearlier 3 (by decide), hearlier 8 (by decide), hearlier 14 (by decide),
    hearlier 16 (by decide)]

/-! ### The eighty words -/

theorem schedule_length (block : List Byte) : (schedule block).length = 80 := by
  rw [schedule, extend_length, blockWords_length]

theorem blockWords_getD (block : List Byte) {t : Nat} (ht : t ≤ 15) :
    (blockWords block).getD t 0 = blockWord block t := by
  have ht16 : t < 16 := by omega
  simp [blockWords, ht16]

/-- The schedule starts with the block (42 R89, `t <= 15`). -/
theorem schedule_getD_of_le (block : List Byte) {t : Nat} (ht : t ≤ 15) :
    (schedule block).getD t 0 = blockWord block t := by
  rw [schedule, extend_getD_add _ 0 64 t (by rw [blockWords_length]; omega), extend, blockWords_getD block ht]

/-- The recurrence of the schedule (42 R89, `16 <= t <= 79`). -/
theorem schedule_getD_of_ge (block : List Byte) {t : Nat} (ht : 16 ≤ t) (ht' : t ≤ 79) :
    (schedule block).getD t 0 =
      rotl ((schedule block).getD (t - 3) 0 ^^^ (schedule block).getD (t - 8) 0 ^^^ (schedule block).getD (t - 14) 0 ^^^
        (schedule block).getD (t - 16) 0) 1 := by
  obtain ⟨n, rfl⟩ := Nat.exists_eq_add_of_le ht
  have hn : n < 64 := by omega
  have happended := extend_getD_length_add (blockWords block) hn
  rw [blockWords_length] at happended
  rw [schedule, happended, nextWord_extend (blockWords_length block) hn.le]

/-! ### The all-zero block -/

theorem beValue_replicate_zero (n : Nat) : beValue (List.replicate n 0) = 0 := by
  induction n with
  | zero => rfl
  | succ n ih => rw [List.replicate_succ, beValue_cons, ih]; simp

theorem blockWord_replicate_zero (n i : Nat) : blockWord (List.replicate n 0) i = 0 := by
  rw [blockWord, List.drop_replicate, List.take_replicate, beValue_replicate_zero]; rfl

/-- Zero words stay zero under the recurrence, which is a rotated XOR. -/
theorem schedule_zero_getD {t : Nat} (ht : t ≤ 79) : (schedule (List.replicate 64 0x00)).getD t 0 = 0 := by
  induction t using Nat.strong_induction_on with
  | _ t ih =>
    by_cases hblock : t ≤ 15
    · rw [schedule_getD_of_le _ hblock, blockWord_replicate_zero]
    · rw [schedule_getD_of_ge _ (by omega) ht, ih (t - 3) (by omega) (by omega), ih (t - 8) (by omega) (by omega),
        ih (t - 14) (by omega) (by omega), ih (t - 16) (by omega) (by omega)]
      rfl

/-- Settles O29: the schedule is the block followed by the recurrence; the zero block is an induction along it, and
`W_16` of the other corner case is one use of it. -/
theorem scheduleRecurrence : Obligations.ScheduleRecurrence := by
  refine ⟨fun t => schedule_zero_getD, ?topBit, fun block t r => rfl, fun block =>
    ⟨schedule_length block, fun t => schedule_getD_of_le block, fun t => schedule_getD_of_ge block⟩⟩
  case topBit =>
    rw [schedule_getD_of_ge _ (by decide) (by decide), schedule_getD_of_le _ (by decide),
      schedule_getD_of_le _ (by decide), schedule_getD_of_le _ (by decide), schedule_getD_of_le _ (by decide)]
    decide

end Sys2Proof.Machine
end

section
/-! The round functions, the choice of the phase, and the add-back (43 R94 to R99, R104). -/

namespace Sys2Proof.Machine

/-! ### The round functions, bit by bit -/

theorem getLsbD_ones {i : Nat} (hi : i < 32) : (0xFFFFFFFF : Word).getLsbD i = true :=
  (BitVec.getLsbD_allOnes (v := 32) (i := i)).trans (decide_eq_true hi)

/-- The phase 0 function is a choice made bit by bit (43 R95). -/
theorem getLsbD_f0 (b c d : Word) {i : Nat} (hi : i < 32) :
    (f0 b c d).getLsbD i = if b.getLsbD i then c.getLsbD i else d.getLsbD i := by
  rw [f0, BitVec.getLsbD_xor, BitVec.getLsbD_and, BitVec.getLsbD_and, BitVec.getLsbD_not, decide_eq_true hi]
  cases b.getLsbD i <;> simp

/-- No position has a 1 in both halves of the choice, so `^` and `|` give the same word (43 R95). -/
theorem f0_eq_or (b c d : Word) : f0 b c d = (b &&& c) ||| (~~~b &&& d) := by
  apply BitVec.eq_of_getLsbD_eq
  intro i hi
  rw [getLsbD_f0 b c d hi, BitVec.getLsbD_or, BitVec.getLsbD_and, BitVec.getLsbD_and, BitVec.getLsbD_not,
    decide_eq_true hi]
  cases b.getLsbD i <;> simp

/-- Where both choices are the same word, the choice does not matter. -/
theorem f0_self_right (b x : Word) : f0 b x x = x := by
  apply BitVec.eq_of_getLsbD_eq
  intro i hi
  rw [getLsbD_f0 b x x hi, ite_self]

theorem f0_ones_left (c d : Word) : f0 0xFFFFFFFF c d = c := by
  apply BitVec.eq_of_getLsbD_eq
  intro i hi
  rw [getLsbD_f0 _ c d hi, getLsbD_ones hi, if_pos rfl]

theorem f0_zero_left (c d : Word) : f0 0 c d = d := by
  apply BitVec.eq_of_getLsbD_eq
  intro i hi
  rw [getLsbD_f0 _ c d hi, BitVec.ofNat_eq_ofNat, BitVec.getLsbD_zero, if_neg Bool.false_ne_true]

/-- Settles O32: bit by bit `f_0` chooses, and `|` and equal choices follow from that; the rest is absorption. -/
theorem selectFunction : Obligations.SelectFunction :=
  ⟨fun b c d => ⟨rfl, f0_eq_or b c d, fun _ => getLsbD_f0 b c d⟩, fun c d => ⟨f0_ones_left c d, f0_zero_left c d⟩,
    f0_self_right, by decide⟩

theorem f1_self_left (x d : Word) : f1 x x d = d := by
  simp [f1]

/-- Settles O33: both are the XOR of the three, in which two equal words cancel. -/
theorem parityFunctions : Obligations.ParityFunctions :=
  ⟨fun _ _ _ => ⟨rfl, rfl⟩, fun x d => ⟨f1_self_left x d, f1_self_left x x⟩, by decide, by decide⟩

/-- The phase 2 function is a vote taken bit by bit (43 R97). -/
theorem getLsbD_f2 (b c d : Word) (i : Nat) :
    (f2 b c d).getLsbD i = decide (2 ≤ (b.getLsbD i).toNat + (c.getLsbD i).toNat + (d.getLsbD i).toNat) := by
  have vote : ∀ x y z : Bool, (x && y || x && z || y && z) = decide (2 ≤ x.toNat + y.toNat + z.toNat) := by decide
  simp only [f2, BitVec.getLsbD_or, BitVec.getLsbD_and, vote]

/-- Two equal words outvote the third. -/
theorem f2_self_left (x d : Word) : f2 x x d = x := by
  apply BitVec.eq_of_getLsbD_eq
  intro i _
  rw [getLsbD_f2]
  cases x.getLsbD i <;> cases d.getLsbD i <;> rfl

theorem f2_zero_left (c d : Word) : f2 0 c d = c &&& d := by
  simp [f2]

/-- A vote already won by one word needs one of the two others. -/
theorem f2_ones_left (c d : Word) : f2 0xFFFFFFFF c d = c ||| d := by
  apply BitVec.eq_of_getLsbD_eq
  intro i hi
  rw [getLsbD_f2, getLsbD_ones hi, BitVec.getLsbD_or]
  cases c.getLsbD i <;> cases d.getLsbD i <;> rfl

/-- Settles O34: the vote on each bit, and the corner cases in which one or two of the voters are known. -/
theorem majorityFunction : Obligations.MajorityFunction :=
  ⟨fun b c d => ⟨rfl, fun i _ => getLsbD_f2 b c d i⟩, f2_self_left, fun c d => ⟨f2_zero_left c d, f2_ones_left c d⟩,
    by decide⟩

/-! ### The choice of the phase -/

/-- A round uses what any other round of its phase uses: the function and the constant read the round through
`floor(t / 20)` only (43 R94). -/
theorem round_of_same_phase {t u : Nat} {f : Word → Word → Word → Word} {k : Word} (h : t / 20 = u / 20)
    (hu : roundFn u = f ∧ roundConst u = k) : roundFn t = f ∧ roundConst t = k := by
  have hphase : phaseOf t = phaseOf u := by rw [phaseOf, phaseOf, h]
  have hfn : roundFn t = roundFn u := by funext b c d; rw [roundFn, roundFn, hphase]
  have hconst : roundConst t = roundConst u := by rw [roundConst, roundConst, hphase]
  rwa [hfn, hconst]

/-- The first round of each phase shows its function and its constant (43 R99). -/
theorem round_at_phase_start :
    (roundFn 0 = f0 ∧ roundConst 0 = 0x5A827999) ∧ (roundFn 20 = f1 ∧ roundConst 20 = 0x6ED9EBA1) ∧
    (roundFn 40 = f2 ∧ roundConst 40 = 0x8F1BBCDC) ∧ (roundFn 60 = f3 ∧ roundConst 60 = 0xCA62C1D6) :=
  ⟨⟨rfl, rfl⟩, ⟨rfl, rfl⟩, ⟨rfl, rfl⟩, ⟨rfl, rfl⟩⟩

/-- Settles O31: every round agrees with the first round of its phase. -/
theorem phaseSelectsFunctionAndConstant : Obligations.PhaseSelectsFunctionAndConstant := by
  intro t ht
  obtain ⟨start0, start20, start40, start60⟩ := round_at_phase_start
  exact ⟨fun _ => round_of_same_phase (by omega) start0, fun _ _ => round_of_same_phase (by omega) start20,
    fun _ _ => round_of_same_phase (by omega) start40, fun _ => round_of_same_phase (by omega) start60⟩

/-! ### The add-back -/

theorem Engine.addBack_h_getElem (e : Engine) (p : Pipeline) (i : Fin 5) :
    (e.addBack p).h[i] = e.h[i] + p.v[i] := by
  fin_cases i <;> rfl

/-- Settles O38: each word is a sum of two words, whose value is the sum modulo 2^32. -/
theorem addBackAddsTheRoles : Obligations.AddBackAddsTheRoles :=
  fun e p => ⟨fun i => by rw [Engine.addBack_h_getElem, BitVec.toNat_add], rfl⟩

end Sys2Proof.Machine
end

section
/-! The role values of a TRANSFORM and its window, round by round, up to `compress` (43 R105). -/

namespace Sys2Proof.Machine

/-! ### One round, read through the roles -/

/-- The value ROUND puts in role `e`, which the next round reads as role `a` (43 R101). -/
def Pipeline.roundSum (p : Pipeline) (t : Nat) : Word :=
  p.role 4 t + roundFn t (p.role 1 t) (p.role 2 t) (p.role 3 t) + rotl (p.role 0 t) 5 + roundConst t + p.winAt t

/-- ROUND is two role writes: the sum in role `e`, and role `b` rotated (43 R101). -/
theorem Pipeline.round_v (p : Pipeline) {t : Nat} (ht : p.t.toNat = t) :
    p.round.v = ((p.setRole 4 t (p.roundSum t)).setRole 1 t (rotl (p.role 1 t) 30)).v := by
  subst ht
  rw [← Pipeline.role_setRole_ne p (k := 4) (k' := 1) _ (p.roundSum p.t.toNat) (by decide) (by decide) (by decide)]
  rfl

/-- Every role of the next round is a role of this one after the two writes (43 R101). -/
theorem Pipeline.role_round_succ (p : Pipeline) {t k k' : Nat} (ht : p.t.toNat = t)
    (h : roleIndex k (t + 1) = roleIndex k' t) :
    p.round.role k (t + 1) = ((p.setRole 4 t (p.roundSum t)).setRole 1 t (rotl (p.role 1 t) 30)).role k' t := by
  rw [Pipeline.role_of_index_eq _ h, Pipeline.role_of_v_eq (p.round_v ht)]

/-- ROUND with rotating indices is the round on the role values (43 R102). -/
theorem Pipeline.rolesAt_round (p : Pipeline) {t : Nat} (ht : p.t.toNat = t) :
    p.round.rolesAt (t + 1) = roundOf t (p.rolesAt t) (p.winAt t) := by
  have untouched {k : Nat} (hk : k < 4) (hk1 : k ≠ 1) :
      p.round.role (k + 1) (t + 1) = p.role k t := by
    rw [p.role_round_succ ht (roleIndex_succ k t),
      Pipeline.role_setRole_ne _ _ _ (by decide) (by omega) hk1,
      Pipeline.role_setRole_ne _ _ _ (by decide) (by omega) (by omega)]
  have written : p.round.role 0 (t + 1) = p.roundSum t := by
    rw [p.role_round_succ ht (roleIndex_zero_succ t),
      Pipeline.role_setRole_ne _ _ _ (by decide) (by decide) (by decide), Pipeline.role_setRole_self]
  have rotated : p.round.role 2 (t + 1) = rotl (p.role 1 t) 30 := by
    rw [p.role_round_succ ht (roleIndex_succ 1 t), Pipeline.role_setRole_self]
  simp only [Pipeline.rolesAt, roundOf, written, rotated, untouched (k := 0) (by decide) (by decide),
    untouched (k := 2) (by decide) (by decide), untouched (k := 3) (by decide) (by decide), Pipeline.roundSum]

/-! ### The rounds on a loaded block -/

/-- Word `i` of the block a TRANSFORM loads (42 R88). -/
theorem winAt_loadBlock (m : Memory) (h : Vector Word 5) {i : Nat} (hi : i < 16) :
    (loadBlock m h).winAt i = blockWord m.block i := by
  have hbytes : m.bytes (BitVec.ofNat 6 (4 * i)) 4 = (m.block.drop (4 * i)).take 4 := by
    apply List.ext_getElem
    · simp; omega
    · intro j hj _
      simp [Memory.bytes, Memory.block, BitVec.ofNat_add]
  simp [loadBlock, Pipeline.winAt, Nat.mod_eq_of_lt hi, blockWord, Memory.memRead, hbytes]

/-- The window at round `t`: the last sixteen schedule words, or at first those of the block (42 R91). -/
def Pipeline.HoldsSchedule (p : Pipeline) (ws : List Word) (t : Nat) : Prop :=
  ∀ i, t ≤ i + 16 → i < max t 16 → p.winAt i = ws.getD i 0

theorem loadBlock_holdsSchedule (m : Memory) (h : Vector Word 5) :
    (loadBlock m h).HoldsSchedule (schedule m.block) 0 := by
  intro i _ hi
  have hi16 : i < 16 := by omega
  rw [winAt_loadBlock m h hi16, schedule_getD_of_le _ (by omega)]

/-- SCHED at round `t` adds `W_t` to the window; from `W_16` on it takes the slot of `W_{t-16}` (42 R90, R91). -/
theorem Pipeline.sched_holdsSchedule {p : Pipeline} {block : List Byte} {t : Nat} (ht : p.t.toNat = t) (h79 : t ≤ 79)
    (hp : p.HoldsSchedule (schedule block) t) : p.sched.HoldsSchedule (schedule block) (t + 1) := by
  intro i hlow hhigh
  rw [Pipeline.winAt_sched, ht]
  split
  case isTrue hslot =>
    obtain ⟨h16, hmod⟩ := hslot
    obtain rfl : i = t := by omega
    have hoverwritten : p.winAt i = p.winAt (i - 16) := by
      have : i % 16 = (i - 16) % 16 := by omega
      simp [Pipeline.winAt, this]
    rw [schedule_getD_of_ge block h16 h79, hoverwritten, hp (i - 3) (by omega) (by omega),
      hp (i - 8) (by omega) (by omega), hp (i - 14) (by omega) (by omega), hp (i - 16) (by omega) (by omega)]
  case isFalse hslot => exact hp i (by omega) (by omega)

theorem runRounds_loadBlock_t (m : Memory) (h : Vector Word 5) {n : Nat} (hn : n ≤ 80) :
    (Pipeline.runRounds n (loadBlock m h)).t.toNat = n := by
  rw [Pipeline.runRounds_t, BitVec.toNat_add, BitVec.toNat_ofNat]
  simp [loadBlock]
  omega

/-- Through the rounds the window keeps holding the schedule of the block (42 R91). -/
theorem runRounds_holdsSchedule (m : Memory) (h : Vector Word 5) {n : Nat} (hn : n ≤ 80) :
    (Pipeline.runRounds n (loadBlock m h)).HoldsSchedule (schedule m.block) n := by
  induction n with
  | zero => exact loadBlock_holdsSchedule m h
  | succ n ih =>
    exact Pipeline.sched_holdsSchedule (runRounds_loadBlock_t m h (by omega)) (by omega) (ih (by omega))

/-- The role values after `n` rounds are those of the rounds in closed form (43 R103). -/
theorem runRounds_rolesAt (m : Memory) (h : Vector Word 5) {n : Nat} (hn : n ≤ 80) :
    (Pipeline.runRounds n (loadBlock m h)).rolesAt n = rounds (schedule m.block) n (rolesOf h) := by
  induction n with
  | zero => rfl
  | succ n ih =>
    have ht : (Pipeline.runRounds n (loadBlock m h)).sched.t.toNat = n := by
      rw [Pipeline.sched_t, runRounds_loadBlock_t m h (by omega)]
    have hw : (Pipeline.runRounds n (loadBlock m h)).sched.winAt n = (schedule m.block).getD n 0 :=
      Pipeline.sched_holdsSchedule (runRounds_loadBlock_t m h (by omega)) (by omega)
        (runRounds_holdsSchedule m h (by omega)) n (by omega) (by omega)
    have hroles : (Pipeline.runRounds n (loadBlock m h)).sched.rolesAt n =
        (Pipeline.runRounds n (loadBlock m h)).rolesAt n := by
      simp only [Pipeline.rolesAt, Pipeline.role_of_v_eq (Pipeline.sched_v _)]
    rw [Pipeline.runRounds, Pipeline.rolesAt_round _ ht, hw, hroles, ih (by omega), rounds]

/-- At a round that is a multiple of five the words of `V` are the roles in their order (43 R101). -/
theorem Pipeline.rolesOf_v_of_dvd (p : Pipeline) {t : Nat} (ht : t % 5 = 0) : rolesOf p.v = p.rolesAt t := by
  simp [rolesOf, Pipeline.rolesAt, Pipeline.role, roleIndex_of_dvd _ ht]

/-- After the eighty rounds `V` holds the final role values in their order (43 R105). -/
theorem rolesOf_allRounds (m : Memory) (h : Vector Word 5) :
    rolesOf (loadBlock m h).allRounds.v = allRoundsOf (schedule m.block) (rolesOf h) := by
  have h80 := runRounds_rolesAt m h (Nat.le_refl 80)
  unfold Pipeline.allRounds allRoundsOf
  rw [← h80]
  exact Pipeline.rolesOf_v_of_dvd _ (by decide)

/-- The chaining value with the values of the roles added, word by word (43 R104, R105). -/
def addRoles (h : Vector Word 5) (r : Roles) : Vector Word 5 :=
  #v[h[0] + r.a, h[1] + r.b, h[2] + r.c, h[3] + r.d, h[4] + r.e]

theorem Engine.addBack_h (e : Engine) (p : Pipeline) : (e.addBack p).h = addRoles e.h (rolesOf p.v) := rfl

theorem compress_eq_addRoles (h : Vector Word 5) (block : List Byte) :
    compress h block = addRoles h (allRoundsOf (schedule block) (rolesOf h)) := rfl

/-- TRANSFORM is `H <- compress(H, BUF)` (43 R105, R106). -/
theorem Engine.transform_h (e : Engine) : e.transform.h = compress e.h e.buf.block := by
  rw [Engine.transform, Engine.addBack_h, rolesOf_allRounds, compress_eq_addRoles]

end Sys2Proof.Machine
end

section
/-! The stream that a string of ABSORBs takes, and FINAL as the absorption of the padding (43 R107, 44 R109). -/

namespace Sys2Proof.Machine

/-! ### Absorbing a stream is the chain over its whole blocks -/

/-- A block stored from offset 0 is all of `BUF` (20 R50). -/
theorem Engine.stored_block {e : Engine} {bs : List Byte} (hoff : (pendingOffset e.count).toNat = 0)
    (hlen : bs.length = 64) : (e.stored bs).buf.block = bs := by
  have hzero : pendingOffset e.count = 0 := BitVec.eq_of_toNat_eq hoff
  have hread := Memory.bytes_copyIn e.buf 0 bs (by simp [hlen])
  rw [hlen] at hread
  rwa [Engine.stored, hzero, Memory.block]

/-- A whole block, absorbed from offset 0, is one compression (42 R87, 43 R105). -/
theorem Engine.absorbAll_block_h {e : Engine} {bs : List Byte} (hoff : (pendingOffset e.count).toNat = 0)
    (hlen : bs.length = 64) : (e.absorbAll bs).h = compress e.h bs := by
  rw [Engine.absorbAll_full e bs (List.ne_nil_of_length_pos (by omega)) (by omega), Engine.transform_h,
    Engine.stored_block hoff hlen, Engine.stored]

/-- Less than a block, absorbed from offset 0, leaves `H` alone (41 R77 step 4). -/
theorem Engine.absorbAll_rest_h {e : Engine} {bs : List Byte} (hoff : (pendingOffset e.count).toNat = 0)
    (hlen : bs.length < 64) : (e.absorbAll bs).h = e.h := by
  rw [Engine.absorbAll_short e bs (by omega), Engine.stored]

/-- A stream absorbed from offset 0 takes `H` along the chain over its whole blocks (43 R107). -/
theorem Engine.absorbAll_h {e : Engine} (m : List Byte) (hoff : (pendingOffset e.count).toNat = 0) :
    (e.absorbAll m).h = chain e.h (wholeBlocks m) := by
  rw [wholeBlocks]
  generalize hn : m.length / 64 = n
  induction n generalizing e m with
  | zero => exact Engine.absorbAll_rest_h hoff (by omega)
  | succ n ih =>
    have hblock : (m.take 64).length = 64 := by rw [List.length_take]; omega
    have hnext : (pendingOffset (e.absorbAll (m.take 64)).count).toNat = 0 :=
      Engine.pendingOffset_absorbAll_full (by omega)
    calc (e.absorbAll m).h
        = ((e.absorbAll (m.take 64)).absorbAll (m.drop 64)).h := by
          rw [← Engine.absorbAll_append, List.take_append_drop]
      _ = chain (e.absorbAll (m.take 64)).h (firstBlocks n (m.drop 64)) :=
          ih _ hnext (by rw [List.length_drop]; omega)
      _ = chain (compress e.h (m.take 64)) (firstBlocks n (m.drop 64)) := by
          rw [Engine.absorbAll_block_h hoff hblock]

/-! ### Padding is absorption -/

/-- The loop of step 2 absorbs the `n` zero bytes that lead to offset 56 (44 R111). -/
theorem Engine.padZeros_eq_absorbAll {n fuel : Nat} {e : Engine} (hn : n < 64) (hfuel : n < fuel)
    (h56 : ((pendingOffset e.count).toNat + n) % 64 = 56) :
    Engine.padZeros fuel e = e.absorbAll (List.replicate n 0x00) := by
  induction fuel generalizing n e with
  | zero => omega
  | succ fuel ih =>
    have hoff : (pendingOffset e.count).toNat < 64 := (pendingOffset e.count).isLt
    have hat : pendingOffset e.count = 56 ↔ (pendingOffset e.count).toNat = 56 := BitVec.toNat_eq
    rw [Engine.padZeros]
    cases n with
    | zero =>
      rw [if_pos (hat.2 (by omega))]
      rfl
    | succ n =>
      have hnext : (pendingOffset (e.absorb 0x00).count).toNat = ((pendingOffset e.count).toNat + 1) % 64 := by
        rw [Engine.absorb_count]; exact pendingOffset_add_toNat e.count 1
      rw [if_neg (mt hat.1 (by omega)), List.replicate_succ, Engine.absorbAll_cons]
      exact ih (by omega) (by omega) (by omega)

/-- The engine with `b` in `BITLEN`: what step 1 of FINAL makes of it (44 R110). -/
def Engine.withBitlen (e : Engine) (b : BitVec 64) : Engine := { e with bitlen := b }

@[simp] theorem Engine.withBitlen_h (e : Engine) (b : BitVec 64) : (e.withBitlen b).h = e.h := rfl
@[simp] theorem Engine.withBitlen_count (e : Engine) (b : BitVec 64) : (e.withBitlen b).count = e.count := rfl
@[simp] theorem Engine.withBitlen_bitlen (e : Engine) (b : BitVec 64) : (e.withBitlen b).bitlen = b := rfl

theorem Engine.latchBitLength_eq (e : Engine) : e.latchBitLength = e.withBitlen (bitLength e.count) := rfl

/-- TRANSFORM neither reads nor writes `BITLEN` (43 R106). -/
theorem Engine.transform_withBitlen (e : Engine) (b : BitVec 64) :
    (e.withBitlen b).transform = e.transform.withBitlen b := by
  unfold Engine.transform Engine.withBitlen
  generalize (loadBlock e.buf e.h).allRounds = p
  rfl

theorem Engine.absorb_withBitlen (e : Engine) (b : BitVec 64) (x : Byte) :
    (e.withBitlen b).absorb x = (e.absorb x).withBitlen b := by
  by_cases hfull : pendingOffset e.count = 63
  · rw [Engine.absorb_of_eq e x hfull, Engine.absorb_of_eq (e.withBitlen b) x hfull, ← Engine.transform_withBitlen]
    rfl
  · rw [Engine.absorb_of_ne e x hfull, Engine.absorb_of_ne (e.withBitlen b) x hfull]
    rfl

/-- Latching the bit length first or last is the same: absorbing neither reads nor writes `BITLEN` (44 R110). -/
theorem Engine.absorbAll_withBitlen (e : Engine) (b : BitVec 64) (bs : List Byte) :
    (e.withBitlen b).absorbAll bs = (e.absorbAll bs).withBitlen b := by
  induction bs generalizing e with
  | nil => rfl
  | cons x bs ih => rw [Engine.absorbAll_cons, Engine.absorb_withBitlen, ih, Engine.absorbAll_cons]

/-- At offset 56 the direct store of `BITLEN` and the TRANSFORM after it act on `H` as absorbing the eight bytes of
`BITLEN` would (44 R114, R116). -/
theorem Engine.storeLength_transform_h {e : Engine} (h56 : (pendingOffset e.count).toNat = 56) :
    e.storeLength.transform.h = (e.absorbAll (beBytes 8 e.bitlen.toNat)).h := by
  have hoff : pendingOffset e.count = 56 := BitVec.eq_of_toNat_eq h56
  have hlen : (beBytes 8 e.bitlen.toNat).length = 8 := beBytes_length ..
  have hbuf : e.storeLength.buf = (e.stored (beBytes 8 e.bitlen.toNat)).buf := by
    rw [Engine.storeLength_buf, Memory.memWrite, Engine.stored, hoff]
  rw [Engine.absorbAll_full e _ (List.ne_nil_of_length_pos (by omega)) (by omega)]
  exact (Engine.transform_congr hbuf rfl).1

/-! ### FINAL on a stream -/

theorem zeroCount_lt (j : Nat) : zeroCount j < 64 := Nat.mod_lt _ (by decide)

/-- The 0x80 and the zero bytes bring a stream to offset 56 of its last block (44 R112). -/
theorem zeroCount_ends_at_56 (j : Nat) : (j + 1 + zeroCount j) % 64 = 56 := by
  unfold zeroCount; omega

/-- The bit length of a counted stream is the one its padding holds (44 R110, R113). -/
theorem bitLength_ofNat_toNat (n : Nat) : (bitLength (BitVec.ofNat 64 n)).toNat = 8 * n % 2 ^ 64 := by
  rw [bitLength_toNat, BitVec.toNat_ofNat, Nat.mod_mul_mod, Nat.mul_comm]

/-- The offset after absorbing a stream from `COUNT = 0` (10 R30). -/
theorem Engine.pendingOffset_absorbAll {e : Engine} (m : List Byte) (hc : e.count = 0) :
    (pendingOffset (e.absorbAll m).count).toNat = m.length % 64 := by
  rw [Engine.absorbAll_count, pendingOffset_add_toNat, hc]
  exact congrArg (· % 64) (Nat.zero_add _)

/-- The padding FINAL absorbs before the length: 0x80 and the zero bytes (44 R111). -/
def padMark (j : Nat) : List Byte := 0x80 :: List.replicate (zeroCount j) 0x00

theorem pad_eq_append (m : List Byte) : pad m = m ++ padMark m.length ++ beBytes 8 (8 * m.length % 2 ^ 64) := rfl

@[simp] theorem padMark_length (j : Nat) : (padMark j).length = zeroCount j + 1 := by simp [padMark]

/-- Steps 1 to 3 of FINAL on a stream that has been absorbed from `COUNT = 0` (44 R110, R111, R114): the stream and its
mark, absorbed with the bit length latched, and then the direct store. -/
theorem Engine.padded_absorbAll {e : Engine} (m : List Byte) (hc : e.count = 0) :
    (e.absorbAll m).padded =
      ((e.withBitlen (bitLength (BitVec.ofNat 64 m.length))).absorbAll (m ++ padMark m.length)).storeLength := by
  have hcount : (e.absorbAll m).count = BitVec.ofNat 64 m.length := by
    rw [Engine.absorbAll_count, hc]; exact BitVec.zero_add _
  have hoff : (pendingOffset ((e.absorbAll m).latchBitLength.absorb 0x80).count).toNat = (m.length % 64 + 1) % 64 := by
    rw [Engine.absorb_count, ← Engine.pendingOffset_absorbAll m hc]
    exact pendingOffset_add_toNat (e.absorbAll m).count 1
  have h56 := zeroCount_ends_at_56 m.length
  rw [Engine.padded, Engine.padZeros_eq_absorbAll (zeroCount_lt m.length) (zeroCount_lt m.length) (by omega),
    ← Engine.absorbAll_cons, ← padMark, Engine.latchBitLength_eq, hcount, ← Engine.absorbAll_withBitlen,
    ← Engine.absorbAll_append]

/-- On a stream `m`, FINAL's padding and last TRANSFORM leave in `H` the end of the chain over `pad m` (44 R109). -/
theorem Engine.padded_transform_h {e : Engine} (m : List Byte) (hc : e.count = 0) :
    (e.absorbAll m).padded.transform.h = chain e.h (wholeBlocks (pad m)) := by
  generalize hl : e.withBitlen (bitLength (BitVec.ofNat 64 m.length)) = l
  have hcount : l.count = 0 := by rw [← hl, Engine.withBitlen_count, hc]
  have hbitlen : l.bitlen.toNat = 8 * m.length % 2 ^ 64 := by rw [← hl, Engine.withBitlen_bitlen, bitLength_ofNat_toNat]
  have h56 : (pendingOffset (l.absorbAll (m ++ padMark m.length)).count).toNat = 56 := by
    rw [Engine.pendingOffset_absorbAll _ hcount, List.length_append, padMark_length]
    have := zeroCount_ends_at_56 m.length
    omega
  calc (e.absorbAll m).padded.transform.h
      = (l.absorbAll (m ++ padMark m.length)).storeLength.transform.h := by rw [Engine.padded_absorbAll m hc, hl]
    _ = (l.absorbAll (pad m)).h := by
        rw [Engine.storeLength_transform_h h56, Engine.absorbAll_bitlen, hbitlen, ← Engine.absorbAll_append,
          ← pad_eq_append]
    _ = chain l.h (wholeBlocks (pad m)) := Engine.absorbAll_h _ (by rw [hcount]; rfl)
    _ = chain e.h (wholeBlocks (pad m)) := by rw [← hl, Engine.withBitlen_h]

end Sys2Proof.Machine
end

section
/-! Command words read back, and what a run of commands from a ready engine does (30 R65, R66, R69). -/

namespace Sys2Proof.Machine

/-! ### A command's word is that command -/

theorem fieldOp_commandWord (op : BitVec 8) (len : BitVec 24) : fieldOp (commandWord op len) = op :=
  BitVec.extractLsb'_append_eq_left

theorem fieldLen_commandWord (op : BitVec 8) (len : BitVec 24) : fieldLen (commandWord op len) = len :=
  BitVec.extractLsb'_append_eq_right

/-- Decoding undoes encoding for every command that fits one word (30 R65). -/
theorem decode_encode {i : Instr} (hi : i.wellFormed = true) : decode (encode i) = .instr i := by
  cases i with
  | init => decide
  | final => decide
  | update len =>
    have hlen : len ≤ maxLen := by simpa [Instr.wellFormed] using hi
    have hfits : (BitVec.ofNat 24 len).toNat = len := by
      rw [BitVec.toNat_ofNat, Nat.mod_eq_of_lt]
      unfold maxLen at hlen
      omega
    simp only [encode, decode, fieldOp_commandWord, fieldLen_commandWord, if_pos, hfits]

/-! ### One command, offered with its data -/

/-- The state in which the command `c` is executed: its word taken from the channel, its data presented (30 R66). -/
def State.taking (s : State) (c : Command) : State := (s.offer c.instr c.data).withCommands []

theorem State.cmdReady_taking (s : State) (c : Command) : cmdReady (s.taking c) = cmdReady s := rfl

/-- A ready engine executes the command it is offered (30 R58, R66). -/
theorem step_offer {s : State} {c : Command} (hr : cmdReady s = true) (hw : c.instr.wellFormed = true) :
    step (s.offer c.instr c.data) = exec c.instr (s.taking c) := by
  obtain ⟨hf, hidle⟩ := (cmdReady_iff s).1 hr
  have hidle' : (s.offer c.instr c.data).remaining = 0 := hidle
  simp only [step, turn, State.offer_rst, State.offer_eng, hf, hidle', Bool.false_eq_true, if_false, if_true,
    acceptNext, State.offer_cmd, acceptWord, decode_encode hw, State.taking]

theorem runCommands_cons {c : Command} {s t : State} (hr : cmdReady s = true) (hw : c.instr.wellFormed = true)
    (h : exec c.instr (s.taking c) = .next t) (cs : List Command) : runCommands (c :: cs) s = runCommands cs t := by
  rw [runCommands, step_offer hr hw, h]

theorem runCommands_ofInit {s : State} (hr : cmdReady s = true) :
    ∃ t, (∀ cs, runCommands (.ofInit :: cs) s = runCommands cs t) ∧ cmdReady t = true ∧ t.eng = s.eng.init := by
  have hr' := (s.cmdReady_taking .ofInit).trans hr
  exact ⟨_, runCommands_cons hr rfl (exec_init_ready hr'), (cmdReady_init _).trans hr', rfl⟩

/-- An UPDATE offered with exactly its data absorbs them and completes (41 R77, R83). -/
theorem runCommands_ofUpdate {s : State} {bs : List Byte} (hr : cmdReady s = true) (hl : s.eng.live = true)
    (hfit : bs.length ≤ maxLen) :
    ∃ t, (∀ cs, runCommands (.ofUpdate bs :: cs) s = runCommands cs t) ∧ cmdReady t = true ∧
      t.eng = s.eng.absorbAll bs := by
  have hr' := (s.cmdReady_taking (.ofUpdate bs)).trans hr
  have hf := ((cmdReady_iff s).1 hr).1
  refine ⟨_, runCommands_cons hr (decide_eq_true hfit) (exec_update_live hr' hl bs.length), ?ready, ?eng⟩
  case ready => exact (State.cmdReady_absorbOffered_iff _).2 ⟨hf, Nat.le_refl bs.length⟩
  case eng =>
    rw [State.absorbOffered_eng, acceptable]
    exact congrArg s.eng.absorbAll List.take_length

theorem runCommands_ofFinal {s : State} (hr : cmdReady s = true) (hl : s.eng.live = true) :
    ∃ t, (∀ cs, runCommands (.ofFinal :: cs) s = runCommands cs t) ∧ cmdReady t = true ∧ t.eng = s.eng.finalize := by
  have hr' := (s.cmdReady_taking .ofFinal).trans hr
  exact ⟨_, runCommands_cons hr rfl (exec_final_live hr' hl), (cmdReady_finalize _).trans hr', rfl⟩

/-! ### Runs -/

/-- A run goes on from where its first part ends (30 R69). -/
theorem runCommands_append {cs : List Command} {s t : State} (h : runCommands cs s = .next t) (ds : List Command) :
    runCommands (cs ++ ds) s = runCommands ds t := by
  induction cs generalizing s with
  | nil => cases h; rfl
  | cons c cs ih =>
    rw [List.cons_append, runCommands]
    rw [runCommands] at h
    cases hstep : step (s.offer c.instr c.data) with
    | next u => rw [hstep] at h; exact ih h
    | fault r => rw [hstep] at h; cases h
    | refused r => rw [hstep] at h; cases h

/-- UPDATEs of any chunks absorb the concatenation of the chunks (41 R84). -/
theorem runCommands_updates {chunks : List (List Byte)} {s : State} (hr : cmdReady s = true)
    (hl : s.eng.live = true) (hfit : chunksFit chunks) :
    ∃ t, runCommands (chunks.map .ofUpdate) s = .next t ∧ cmdReady t = true ∧
      t.eng = s.eng.absorbAll chunks.flatten := by
  induction chunks generalizing s with
  | nil => exact ⟨s, rfl, hr, rfl⟩
  | cons bs chunks ih =>
    obtain ⟨u, hu, hru, heu⟩ := runCommands_ofUpdate hr hl (hfit bs List.mem_cons_self)
    have hlu : u.eng.live = true := by rw [heu, Engine.absorbAll_live, hl]
    obtain ⟨t, ht, hrt, het⟩ := ih hru hlu fun c hc => hfit c (List.mem_cons_of_mem _ hc)
    refine ⟨t, ?run, hrt, ?eng⟩
    case run => rw [List.map_cons, hu, ht]
    case eng => rw [het, heu, List.flatten_cons, Engine.absorbAll_append]

/-- `INIT` and UPDATEs absorb the stream into a fresh computation (30 R70). -/
theorem runCommands_openCommands {chunks : List (List Byte)} {s : State} (hr : cmdReady s = true)
    (hfit : chunksFit chunks) :
    ∃ t, runCommands (openCommands chunks) s = .next t ∧ cmdReady t = true ∧
      t.eng = s.eng.init.absorbAll chunks.flatten := by
  obtain ⟨u, hu, hru, heu⟩ := runCommands_ofInit hr
  obtain ⟨t, ht, hrt, het⟩ := runCommands_updates hru (by rw [heu, Engine.init_live]) hfit
  exact ⟨t, (hu _).trans ht, hrt, by rw [het, heu]⟩

/-- `DIGEST m`: FINAL on the engine that has absorbed the stream into a fresh computation (30 R70). -/
theorem runCommands_digestCommands {chunks : List (List Byte)} {s : State} (hr : cmdReady s = true)
    (hfit : chunksFit chunks) :
    ∃ t, runCommands (digestCommands chunks) s = .next t ∧ cmdReady t = true ∧
      t.eng = (s.eng.init.absorbAll chunks.flatten).finalize := by
  obtain ⟨u, hu, hru, heu⟩ := runCommands_openCommands hr hfit
  obtain ⟨t, ht, hrt, het⟩ := runCommands_ofFinal hru (by rw [heu, Engine.absorbAll_live, Engine.init_live])
  exact ⟨t, (runCommands_append hu _).trans (ht []), hrt, by rw [het, heu]⟩

end Sys2Proof.Machine
end

section
/-! FINAL (44_final). -/

namespace Sys2Proof.Machine

/-! ### The digest -/

/-- Settles O39: the run is INIT, the absorption of the concatenated chunks and FINAL, whose padding is absorption
too, so FINAL serialises the end of the chain over the padded stream. -/
theorem digestOfTheStream : Obligations.DigestOfTheStream := by
  intro s chunks hr hfit
  obtain ⟨t, ht, hrt, het⟩ := runCommands_digestCommands hr hfit
  refine ⟨t, ht, hrt, ?dvalid, ?digest⟩
  case dvalid => rw [het]; rfl
  case digest => rw [het, Engine.finalize_digest, Engine.padded_transform_h _ s.eng.init_count, Engine.init_h]

/-- Byte `4i + k` of the serialised words is byte `k` of word `i` (44 R117). -/
theorem serialize_getD (h : Vector Word 5) (i : Fin 5) (k : Fin 4) :
    (serialize h).toList.getD (4 * i.val + k.val) 0 = wordByte h[i] k := by
  rw [serialize_toList]
  fin_cases i <;> fin_cases k <;> rfl

/-- Settles O42: step 5 writes the serialised chaining words, read byte by byte. -/
theorem serialisedDigestBytes : Obligations.SerialisedDigestBytes :=
  fun e => ⟨serialize_getD e.h, e.emitDigest_dvalid⟩

/-! ### The state FINAL leaves -/

/-- Finalizing the engine keeps the fault code (44 R118). -/
theorem Engine.finalize_fcode (e : Engine) : e.finalize.fcode = e.fcode := by
  simp [Engine.finalize, Engine.padded, Engine.padZeros_fcode, Engine.absorb_fcode]

/-- FINAL leaves the engine as after RESET, but for the digest, its flag and the fault fields (44 R118, R119). -/
theorem Engine.finalize_eq (e : Engine) : e.finalize = { Engine.reset with
    digest := serialize e.padded.transform.h, dvalid := true, fault := e.fault, fcode := e.fcode } := by
  rw [← Engine.finalize_fault e, ← Engine.finalize_fcode e]
  rfl

/-- Settles O44: the wipe is the record of the statement, and FINAL ends with it, keeping the fault fields. -/
theorem finalWipesTheState : Obligations.FinalWipesTheState := by
  refine ⟨Engine.wipe_eq, fun s hr hl => ⟨_, exec_final_live hr hl, ?_⟩⟩
  rw [Engine.finalize_eq]
  have hwords : ∀ i : Fin 5, Engine.reset.h[i] = 0 ∧ Engine.reset.v[i] = 0 := by decide
  have hwindow : ∀ i : Fin 16, Engine.reset.win[i] = 0 := by decide
  exact ⟨hwords, hwindow, Memory.read_nil, rfl, rfl, rfl, rfl, rfl, rfl⟩

/-- A FINAL accepted in VOID takes `ProtocolFault` (60 R128). -/
theorem exec_final_void {s : State} (hr : cmdReady s = true) (hl : s.eng.live = false) :
    exec .final s = .next (s.raise .protocolFault) := by
  rw [exec, execFinal, accepting_ready hr, requiringLive_void hl]

/-- Settles O45: the first FINAL leaves a ready engine in VOID, where FINAL and UPDATE take `ProtocolFault`. -/
theorem finalTwiceFaults : Obligations.FinalTwiceFaults := by
  intro s t hl ht
  obtain ⟨hr, -⟩ := exec_next_cases ht
  cases (exec_final_live hr hl).symm.trans ht
  have hready := (cmdReady_finalize s).trans hr
  have hvoid : s.eng.finalize.live = false := Engine.wipe_live _
  exact ⟨hvoid, exec_final_void hready hvoid, exec_update_void hready hvoid⟩

end Sys2Proof.Machine
end

section
/-! Faults (60_exceptions). -/

namespace Sys2Proof.Machine

/-! ### Where a fault is taken -/

/-- A ready engine accepts the first presented word, taking it from the channel (30 R58, R66). -/
theorem step_cmdReady_cons {s : State} {w : Word} {ws : List Word} (hrst : s.ports.rst = false)
    (hr : cmdReady s = true) (hw : s.ports.cmd = w :: ws) : step s = acceptWord w (s.withCommands ws) := by
  obtain ⟨hf, hidle⟩ := (cmdReady_iff s).1 hr
  simp only [step, turn, hrst, hf, hidle, Bool.false_eq_true, if_false, if_true, acceptNext, hw]

/-- A word that decodes to Reserved raises `ReservedCommand` (60 R127). -/
theorem acceptWord_reserved {w : Word} {why : ReservedWord} (hd : decode w = .reserved why) (s : State) :
    acceptWord w s = .next (s.raise .reservedCommand) := by
  rw [acceptWord, hd]

/-- The two faults are recorded as 1 and 2 (60 R126). -/
theorem CommandFault.code_eq_one_or_two (c : CommandFault) : c.code = 1 ∨ c.code = 2 := by
  cases c with
  | reservedCommand => exact .inl rfl
  | protocolFault => exact .inr rfl

/-- The only fault a command takes is `ProtocolFault`, for INIT, ABSORB and FINAL's steps keep `FAULT` (60 R128). -/
theorem exec_takes_fault {i : Instr} {s t : State} (h : exec i s = .next t) (ht : t.eng.fault = true) :
    t = s.raise .protocolFault := by
  obtain ⟨hr, hcase⟩ := exec_next_cases h
  have hf : s.eng.fault = false := ((cmdReady_iff s).1 hr).1
  rcases hcase with ⟨-, rfl⟩ | ⟨len, -, -, rfl⟩ | ⟨-, -, rfl⟩ | ⟨-, -, rfl⟩
  · simp [hf] at ht
  · simp [Engine.absorbAll_fault, hf] at ht
  · simp [Engine.finalize_fault, hf] at ht
  · rfl

/-- A step takes a fault only by accepting a word in an idle engine, and then all it does is discard the word and raise
the fault (60 R127, R128, R130). -/
theorem step_takes_fault {s t : State} (h : step s = .next t) (hs : s.eng.fault = false) (ht : t.eng.fault = true) :
    s.remaining = 0 ∧ ∃ w ws c, s.ports.cmd = w :: ws ∧ t = (s.withCommands ws).raise c := by
  rcases step_next_cases h with ⟨-, rfl⟩ | ⟨-, -, ⟨-, -, rfl⟩ | ⟨w, ws, why, hidle, hw, -, rfl⟩ |
    ⟨w, ws, i, hidle, hw, -, hi⟩ | ⟨-, rfl⟩⟩
  · cases ht
  · simp [hs] at ht
  · exact ⟨hidle, w, ws, .reservedCommand, hw, rfl⟩
  · exact ⟨hidle, w, ws, .protocolFault, hw, exec_takes_fault hi ht⟩
  · simp [Engine.absorbAll_fault, hs] at ht

/-! ### The obligations -/

/-- Settles O49: a step that takes a fault only discards the word and raises the fault, which writes `FAULT` and
`FCODE`. -/
theorem faultEntryIsPrecise : Obligations.FaultEntryIsPrecise := by
  intro s t h hs ht
  obtain ⟨hidle, w, ws, c, hw, rfl⟩ := step_takes_fault h hs ht
  exact ⟨c.code_eq_one_or_two, rfl, rfl, hidle, w, hw⟩

/-- Settles O47: the ready engine accepts the word, and accepting a reserved word raises `ReservedCommand`. -/
theorem reservedWordFaults : Obligations.ReservedWordFaults := by
  intro s w ws why hrst hr hw hd
  exact (step_cmdReady_cons hrst hr hw).trans (acceptWord_reserved hd _)

/-- Settles O48: both commands require LIVE, whatever the length. -/
theorem protocolFaultWithoutInit : Obligations.ProtocolFaultWithoutInit :=
  fun _ hr hl => ⟨exec_update_void hr hl, exec_final_void hr hl⟩

end Sys2Proof.Machine
end

section
/-! RESET (70_reset_and_hazards). -/

namespace Sys2Proof.Machine

/-! ### What RESET leaves -/

/-- An asserted `rst` goes before everything else a step may do (60 R129, 70 R136). -/
theorem step_rst {s : State} (h : s.ports.rst = true) : step s = .next s.takeReset := by
  rw [step, turn, if_pos h]

/-- After RESET no UPDATE is executing, so the engine is ready (30 R58). -/
theorem cmdReady_takeReset (s : State) : cmdReady s.takeReset = true := rfl

theorem Engine.reset_words_zero (i : Fin 5) : Engine.reset.h[i] = 0 ∧ Engine.reset.v[i] = 0 := by
  decide +revert

theorem Engine.reset_win_zero (i : Fin 16) : Engine.reset.win[i] = 0 := by
  decide +revert

theorem Engine.reset_digest_zero (i : Fin 20) : Engine.reset.digest[i] = 0 := by
  decide +revert

theorem statusPort_takeReset (s : State) : statusPort s.takeReset = 0 := by
  rw [statusPort_specified (portsSpecified_of_cmdReady (cmdReady_takeReset s)), State.takeReset_eng]
  decide

theorem digestPort_takeReset (s : State) : digestPort s.takeReset = 0 := by
  rw [digestPort_specified (portsSpecified_of_cmdReady (cmdReady_takeReset s)), State.takeReset_eng]
  decide

/-! ### What only RESET does -/

/-- A command never clears `DVALID`: FINAL sets it, and nothing else writes it (10 R26). -/
theorem exec_keeps_dvalid {i : Instr} {s t : State} (h : exec i s = .next t) (hd : s.eng.dvalid = true) :
    t.eng.dvalid = true := by
  obtain ⟨-, ⟨-, rfl⟩ | ⟨len, -, -, rfl⟩ | ⟨-, -, rfl⟩ | ⟨-, -, rfl⟩⟩ := exec_next_cases h
  · exact hd
  · exact (Engine.absorbAll_dvalid ..).trans hd
  · rfl
  · exact hd

/-- Without `rst` a step is taken only outside HALTED (60 R131), and it keeps `DVALID` (10 R26). -/
theorem step_without_rst {s t : State} (h : step s = .next t) (hrst : s.ports.rst = false) :
    s.eng.fault = false ∧ (s.eng.dvalid = true → t.eng.dvalid = true) := by
  rcases step_next_cases h with ⟨hrst', -⟩ | ⟨-, hf, hcase⟩
  · simp [hrst] at hrst'
  · refine ⟨hf, fun hd => ?_⟩
    rcases hcase with ⟨-, -, rfl⟩ | ⟨w, ws, why, -, -, -, rfl⟩ | ⟨w, ws, i, -, -, -, hi⟩ | ⟨-, rfl⟩
    · exact hd
    · exact hd
    · exact exec_keeps_dvalid hi hd
    · exact (Engine.absorbAll_dvalid ..).trans hd

/-- Settles O53: RESET goes first and leaves the engine of 10 R40, and without it a step neither starts in HALTED nor
clears `DVALID`. -/
theorem resetZeroesEverything : Obligations.ResetZeroesEverything := by
  refine ⟨fun s hrst => ⟨_, step_rst hrst, ?zeroed⟩, fun s t h hcase => ?onlyReset⟩
  case zeroed =>
    exact ⟨Engine.reset_words_zero, Engine.reset_win_zero, Engine.reset_digest_zero, Memory.read_nil,
      rfl, rfl, rfl, rfl, rfl, rfl, rfl, rfl, rfl,
      cmdReady_takeReset s, rfl, rfl, statusPort_takeReset s, digestPort_takeReset s⟩
  case onlyReset =>
    by_contra hrst
    obtain ⟨hf, hkeeps⟩ := step_without_rst h (by simpa using hrst)
    rcases hcase with hfault | ⟨hd, hcleared⟩
    · simp [hf] at hfault
    · simp [hkeeps hd] at hcleared

end Sys2Proof.Machine
end

section
/-! The command word: decoding read off the fields, and encoding undone (30 R59, R60, R65). -/

namespace Sys2Proof.Machine

/-! ### Decoding, field by field -/

/-- A word is the command word of its two fields (30 R59). -/
theorem commandWord_fields (w : Word) : commandWord (fieldOp w) (fieldLen w) = w := by
  have hw : w.toNat < 2 ^ 32 := w.isLt
  apply BitVec.eq_of_toNat_eq
  rw [commandWord, BitVec.toNat_append, ← Nat.shiftLeft_add_eq_or_of_lt (fieldLen w).isLt, Nat.shiftLeft_eq, fieldOp,
    fieldLen, BitVec.extractLsb'_toNat, BitVec.extractLsb'_toNat, Nat.shiftRight_eq_div_pow]
  omega

theorem decode_of_opInit {w : Word} (hop : fieldOp w = opInit) (hlen : fieldLen w = 0) : decode w = .instr .init := by
  simp [decode, hop, hlen, opInit, opUpdate]

theorem decode_of_opUpdate {w : Word} (hop : fieldOp w = opUpdate) :
    decode w = .instr (.update (fieldLen w).toNat) := by
  simp [decode, hop]

theorem decode_of_opFinal {w : Word} (hop : fieldOp w = opFinal) (hlen : fieldLen w = 0) : decode w = .instr .final := by
  simp [decode, hop, hlen, opInit, opUpdate, opFinal]

/-- The only words that decode to a command are those of the three rows (30 R65). -/
theorem decode_instr_cases {w : Word} {i : Instr} (h : decode w = .instr i) :
    (fieldOp w = opInit ∧ fieldLen w = 0 ∧ i = .init) ∨
    (fieldOp w = opUpdate ∧ i = .update (fieldLen w).toNat) ∨
    (fieldOp w = opFinal ∧ fieldLen w = 0 ∧ i = .final) := by
  unfold decode at h
  dsimp only at h
  split at h
  case isTrue hop => cases h; exact .inr (.inl ⟨hop, rfl⟩)
  case isFalse =>
    split at h
    case isTrue hop =>
      split at h
      case isTrue hlen => cases h; exact .inl ⟨hop, hlen, rfl⟩
      case isFalse => cases h
    case isFalse =>
      split at h
      case isTrue hop =>
        split at h
        case isTrue hlen => cases h; exact .inr (.inr ⟨hop, hlen, rfl⟩)
        case isFalse => cases h
      case isFalse => cases h

/-- A word that decodes to a command is that command's word, and the command fits one word (30 R65). -/
theorem encode_of_decode {w : Word} {i : Instr} (h : decode w = .instr i) : i.wellFormed = true ∧ encode i = w := by
  have hw := commandWord_fields w
  rcases decode_instr_cases h with ⟨hop, hlen, rfl⟩ | ⟨hop, rfl⟩ | ⟨hop, hlen, rfl⟩
  · rw [hop, hlen] at hw
    exact ⟨rfl, hw⟩
  · have hfits : (fieldLen w).toNat ≤ maxLen := Nat.le_of_lt_succ (fieldLen w).isLt
    rw [hop] at hw
    exact ⟨decide_eq_true hfits, by rw [encode, BitVec.ofNat_toNat, BitVec.setWidth_eq, hw]⟩
  · rw [hop, hlen] at hw
    exact ⟨rfl, hw⟩

/-- Decoding and encoding determine each other (30 R65). -/
theorem decode_eq_instr_iff {w : Word} {i : Instr} : decode w = .instr i ↔ i.wellFormed = true ∧ encode i = w :=
  ⟨encode_of_decode, fun ⟨hi, hw⟩ => hw ▸ decode_encode hi⟩

/-! ### The obligations on the command word -/

/-- Settles O3: the fields of a command word are those it was built from, and `LEN` holds every length that fits. -/
theorem decodeInvertsEncode : Obligations.DecodeInvertsEncode := fun _ => decode_encode

/-- Settles O4: a word is the command word of its fields, and those are fixed by the command it decodes to. -/
theorem decodedCommandsAreTheirWords : Obligations.DecodedCommandsAreTheirWords := fun _ _ => encode_of_decode

/-- Settles O5: one lemma per row, and a word outside the rows can only decode to Reserved. -/
theorem decodingFollowsTheFields : Obligations.DecodingFollowsTheFields := by
  intro w
  refine ⟨decode_of_opInit, decode_of_opUpdate, decode_of_opFinal, fun hinit hupdate hfinal => ?_⟩
  cases hd : decode w with
  | reserved why => exact ⟨why, rfl⟩
  | instr i =>
    rcases decode_instr_cases hd with ⟨hop, hlen, -⟩ | ⟨hop, -⟩ | ⟨hop, hlen, -⟩
    · exact absurd ⟨hop, hlen⟩ hinit
    · exact absurd hop hupdate
    · exact absurd ⟨hop, hlen⟩ hfinal

/-- The mask of INIT and FINAL keeps the whole word, so each of them has one word (30 R60). -/
theorem and_fullMask_eq_iff {w : Word} {i : Instr} (hi : i.wellFormed = true) :
    w &&& 0xFFFFFFFF = encode i ↔ decode w = .instr i := by
  have hmask : w &&& 0xFFFFFFFF = w := BitVec.and_allOnes
  rw [hmask, decode_eq_instr_iff, and_iff_right hi, eq_comm]

/-- The mask of UPDATE keeps the operation code (30 R60). -/
theorem fieldOp_and_updateMask (w : Word) : fieldOp (w &&& 0xFF000000) = fieldOp w := by
  have hmask : (0xFF000000 : Word).extractLsb' 24 8 = BitVec.allOnes 8 := by decide
  rw [fieldOp, BitVec.extractLsb'_and, hmask, BitVec.and_allOnes, fieldOp]

/-- Settles O6: INIT and FINAL have one word each; the mask of UPDATE looks at the operation code only. -/
theorem tableRowsMatchDecoding : Obligations.TableRowsMatchDecoding := by
  intro w
  refine ⟨and_fullMask_eq_iff (i := .init) rfl, ⟨fun hrow => ?toUpdate, fun ⟨len, hd⟩ => ?ofUpdate⟩,
    and_fullMask_eq_iff (i := .final) rfl⟩
  case toUpdate => exact ⟨_, decode_of_opUpdate (by rw [← fieldOp_and_updateMask, hrow]; decide)⟩
  case ofUpdate =>
    rw [← (encode_of_decode hd).2]
    exact Laws.TableRow.update len

/-- Settles O7: ten fixed words, decoded. -/
theorem tabulatedWordsDecode : Obligations.TabulatedWordsDecode := by
  unfold Obligations.TabulatedWordsDecode
  decide

end Sys2Proof.Machine
end

section
/-! What every step keeps: the machine invariant (10 R24, R28, R29, R34, 30 R58). -/

namespace Sys2Proof.Machine

/-! ### The round index and the engine's operations -/

/-- TRANSFORM ends with `T = 80` (10 R24). -/
theorem Engine.transform_t (e : Engine) : e.transform.t = 80 := by
  unfold Engine.transform Pipeline.allRounds
  rw [Engine.addBack_t, Pipeline.runRounds_t]
  rfl

/-- ABSORB moves `T` only by the TRANSFORM of a filled block (41 R82). -/
theorem Engine.absorb_t (e : Engine) (x : Byte) :
    (e.absorb x).t = if pendingOffset e.count = 63 then 80 else e.t := by
  split
  case isTrue hfull => rw [Engine.absorb_of_eq e x hfull, Engine.transform_t]
  case isFalse hfull => rw [Engine.absorb_of_ne e x hfull]

/-- Absorbing leaves `T` at its resting values (10 R24). -/
theorem Engine.absorbAll_t_rest {e : Engine} (h : e.t = 0 ∨ e.t = 80) (bs : List Byte) :
    (e.absorbAll bs).t = 0 ∨ (e.absorbAll bs).t = 80 := by
  induction bs generalizing e with
  | nil => exact h
  | cons x bs ih =>
    refine ih ?_
    rw [Engine.absorb_t]
    split
    · exact .inr rfl
    · exact h

/-! ### The invariant, operation by operation -/

/-- The ports and the sample counter are no part of the invariant. -/
theorem State.Inv.congr {s t : State} (h : s.Inv) (heng : t.eng = s.eng) (hrem : t.remaining = s.remaining) : t.Inv := by
  obtain ⟨e, n, p, k⟩ := t
  obtain rfl : e = s.eng := heng
  obtain rfl : n = s.remaining := hrem
  exact ⟨h.bufCanonical, h.faultHasCode, h.codeThreeUnused, h.roundIndexRest, h.bitLengthRest, h.voidIsWiped,
    h.digestBlank, h.waitingIsLive, h.waitingBound⟩

/-- Settles O54: after RESET every element is zero, and nothing is outstanding. -/
theorem invariantAfterReset : Obligations.InvariantAfterReset where
  bufCanonical := Memory.wf_nil
  faultHasCode := by decide
  codeThreeUnused := by decide
  roundIndexRest := .inl rfl
  bitLengthRest := rfl
  voidIsWiped := fun _ => rfl
  digestBlank := fun _ => rfl
  waitingIsLive := fun h => absurd rfl h
  waitingBound := Nat.zero_le _

theorem State.inv_takeReset (s : State) : s.takeReset.Inv := invariantAfterReset.congr rfl rfl

theorem CommandFault.code_ne (c : CommandFault) : c.code ≠ 0 ∧ c.code ≠ 3 := by
  cases c <;> decide

/-- Taking a fault writes `FAULT` and `FCODE` only, and together (60 R130). -/
theorem State.Inv.raise {s : State} (h : s.Inv) (hidle : s.remaining = 0) (c : CommandFault) : (s.raise c).Inv where
  bufCanonical := h.bufCanonical
  faultHasCode := ⟨fun _ => c.code_ne.1, fun _ => rfl⟩
  codeThreeUnused := c.code_ne.2
  roundIndexRest := h.roundIndexRest
  bitLengthRest := h.bitLengthRest
  voidIsWiped := fun hl => congrArg (Engine.raise · c) (h.voidIsWiped hl)
  digestBlank := h.digestBlank
  waitingIsLive := fun hw => absurd hidle hw
  waitingBound := h.waitingBound

theorem State.Inv.init {s : State} (h : s.Inv) (hidle : s.remaining = 0) : State.Inv { s with eng := s.eng.init } where
  bufCanonical := h.bufCanonical
  faultHasCode := h.faultHasCode
  codeThreeUnused := h.codeThreeUnused
  roundIndexRest := h.roundIndexRest
  bitLengthRest := h.bitLengthRest
  voidIsWiped := fun hl => by cases hl
  digestBlank := h.digestBlank
  waitingIsLive := fun hw => absurd hidle hw
  waitingBound := h.waitingBound

/-- FINAL leaves the engine of RESET but for the digest, its flag and the fault fields (44 R119). -/
theorem State.Inv.finalize {s : State} (h : s.Inv) (hidle : s.remaining = 0) :
    State.Inv { s with eng := s.eng.finalize } := by
  rw [Engine.finalize_eq]
  exact {
    bufCanonical := Memory.wf_nil
    faultHasCode := h.faultHasCode
    codeThreeUnused := h.codeThreeUnused
    roundIndexRest := .inl rfl
    bitLengthRest := rfl
    voidIsWiped := fun _ => rfl
    digestBlank := fun hd => by cases hd
    waitingIsLive := fun hw => absurd hidle hw
    waitingBound := h.waitingBound }

/-- In LIVE an UPDATE that needs `n` bytes keeps the invariant, whether it completes or waits (41 R82, R86). -/
theorem State.Inv.absorbOffered {s : State} (h : s.Inv) (hl : s.eng.live = true) (hf : s.eng.fault = false) {n : Nat}
    (hn : n ≤ maxLen) : (State.absorbOffered { s with remaining := n }).Inv := by
  have hlive : (s.eng.absorbAll (s.ports.din.take n)).live = true := (Engine.absorbAll_live ..).trans hl
  exact {
    bufCanonical := Engine.absorbAll_wf h.bufCanonical _
    faultHasCode := by
      rw [State.absorbOffered_eng, Engine.absorbAll_fault, Engine.absorbAll_fcode]; exact h.faultHasCode
    codeThreeUnused := (Engine.absorbAll_fcode ..).trans_ne h.codeThreeUnused
    roundIndexRest := Engine.absorbAll_t_rest h.roundIndexRest _
    bitLengthRest := (Engine.absorbAll_bitlen ..).trans h.bitLengthRest
    voidIsWiped := fun hvoid => Bool.noConfusion (hlive.symm.trans hvoid)
    digestBlank := fun hd =>
      (Engine.absorbAll_digest ..).trans (h.digestBlank ((Engine.absorbAll_dvalid ..).symm.trans hd))
    waitingIsLive := fun _ => ⟨hlive, (Engine.absorbAll_fault ..).trans hf⟩
    waitingBound := (Nat.sub_le ..).trans hn }

/-! ### Commands and steps -/

/-- An accepted command that fits one word keeps the invariant (30 R61). -/
theorem exec_keeps_inv {i : Instr} {s t : State} (h : s.Inv) (hi : i.wellFormed = true) (ht : exec i s = .next t) :
    t.Inv := by
  obtain ⟨hr, hcase⟩ := exec_next_cases ht
  obtain ⟨hf, hidle⟩ := (cmdReady_iff s).1 hr
  rcases hcase with ⟨-, rfl⟩ | ⟨len, rfl, hl, rfl⟩ | ⟨-, -, rfl⟩ | ⟨-, -, rfl⟩
  · exact h.init hidle
  · exact h.absorbOffered hl hf (by simpa [Instr.wellFormed] using hi)
  · exact h.finalize hidle
  · exact h.raise hidle _

/-- Settles O55: RESET, an idle turn, a reserved word, a command and a waiting UPDATE each keep the invariant; a decoded
command fits one word. -/
theorem stepKeepsTheInvariant : Obligations.StepKeepsTheInvariant := by
  intro s t h ht
  rcases step_next_cases ht with ⟨-, rfl⟩ | ⟨-, hf, ⟨-, -, rfl⟩ | ⟨w, ws, why, hidle, -, -, rfl⟩ |
    ⟨w, ws, i, -, -, hd, hi⟩ | ⟨hwait, rfl⟩⟩
  · exact s.inv_takeReset
  · exact h
  · exact (h.congr rfl rfl : (s.withCommands ws).Inv).raise hidle _
  · exact exec_keeps_inv (h.congr rfl rfl : (s.withCommands ws).Inv) (encode_of_decode hd).1 hi
  · exact h.absorbOffered (h.waitingIsLive hwait).1 hf h.waitingBound

end Sys2Proof.Machine
end

section
/-! What happens next is decided by control and never by the data (00 R7, 41 R79). -/

namespace Sys2Proof.Machine

/-! ### Engines that agree on control -/

theorem Engine.SameControl.absorb {x y : Engine} (h : x.SameControl y) (a b : Byte) :
    (x.absorb a).SameControl (y.absorb b) where
  count := by rw [Engine.absorb_count, Engine.absorb_count, h.count]
  live := by rw [Engine.absorb_live, Engine.absorb_live, h.live]
  dvalid := by rw [Engine.absorb_dvalid, Engine.absorb_dvalid, h.dvalid]
  fault := by rw [Engine.absorb_fault, Engine.absorb_fault, h.fault]
  fcode := by rw [Engine.absorb_fcode, Engine.absorb_fcode, h.fcode]
  t := by rw [Engine.absorb_t, Engine.absorb_t, h.count, h.t]
  bitlen := by rw [Engine.absorb_bitlen, Engine.absorb_bitlen, h.bitlen]

/-- Of the absorbed bytes only their number matters for control (41 R79). -/
theorem Engine.SameControl.absorbAll {x y : Engine} (h : x.SameControl y) {as bs : List Byte}
    (hlen : as.length = bs.length) : (x.absorbAll as).SameControl (y.absorbAll bs) := by
  induction as generalizing x y bs with
  | nil =>
    cases bs with
    | nil => exact h
    | cons b bs => cases hlen
  | cons a as ih =>
    cases bs with
    | nil => cases hlen
    | cons b bs => exact ih (h.absorb a b) (Nat.succ.inj hlen)

theorem Engine.SameControl.init {x y : Engine} (h : x.SameControl y) : x.init.SameControl y.init :=
  { h with count := rfl, live := rfl }

theorem Engine.SameControl.raise {x y : Engine} (h : x.SameControl y) (c : CommandFault) :
    (x.raise c).SameControl (y.raise c) :=
  { h with fault := rfl, fcode := rfl }

theorem Engine.SameControl.finalize {x y : Engine} (h : x.SameControl y) : x.finalize.SameControl y.finalize := by
  rw [Engine.finalize_eq, Engine.finalize_eq]
  exact ⟨rfl, rfl, rfl, h.fault, h.fcode, rfl, rfl⟩

/-! ### Machines that agree on control -/

theorem State.SameControl.takeReset {x y : State} (h : x.SameControl y) : x.takeReset.SameControl y.takeReset :=
  { h with eng := ⟨rfl, rfl, rfl, rfl, rfl, rfl, rfl⟩, remaining := rfl, rst := rfl }

theorem State.SameControl.raise {x y : State} (h : x.SameControl y) (c : CommandFault) :
    (x.raise c).SameControl (y.raise c) :=
  { h with eng := h.eng.raise c }

theorem State.SameControl.withCommands {x y : State} (h : x.SameControl y) (ws : List Word) :
    (x.withCommands ws).SameControl (y.withCommands ws) :=
  { h with cmd := rfl }

theorem State.absorbOffered_sample (s : State) :
    s.absorbOffered.sample = if s.remaining - s.ports.din.length = 0 then s.sample else s.sample + 1 := rfl

/-- As many bytes are presented and needed in both machines, so as many are taken and as many left. -/
theorem State.SameControl.absorbOffered {x y : State} (h : x.SameControl y) :
    x.absorbOffered.SameControl y.absorbOffered where
  eng := h.eng.absorbAll (by rw [acceptable, acceptable, List.length_take, List.length_take, h.remaining, h.dinLength])
  remaining := by rw [State.absorbOffered_remaining, State.absorbOffered_remaining, h.remaining, h.dinLength]
  rst := h.rst
  cmd := h.cmd
  dinLength := by
    rw [State.absorbOffered_din, State.absorbOffered_din, List.length_drop, List.length_drop, h.remaining, h.dinLength]
  sample := by
    rw [State.absorbOffered_sample, State.absorbOffered_sample, h.remaining, h.dinLength, h.sample]

/-! ### Outcomes that agree on control -/

section
variable {x y : State} (h : x.SameControl y) {body : State → Host.Outcome State Fault Refusal}
  (hbody : sameControlOutcome (body x) (body y))
include h hbody

theorem sameControlOutcome_accepting : sameControlOutcome (accepting x body) (accepting y body) := by
  unfold accepting
  rw [h.eng.fault, h.eng.fcode, h.remaining]
  split
  · rfl
  · split
    · exact hbody
    · rfl

theorem sameControlOutcome_requiringLive : sameControlOutcome (requiringLive x body) (requiringLive y body) := by
  unfold requiringLive
  rw [h.eng.live]
  split
  · exact hbody
  · exact h.raise _

end

theorem sameControlOutcome_exec {x y : State} (h : x.SameControl y) (i : Instr) :
    sameControlOutcome (exec i x) (exec i y) := by
  cases i with
  | init =>
    have hnext : State.SameControl { x with eng := x.eng.init } { y with eng := y.eng.init } :=
      { h with eng := h.eng.init }
    simp only [exec, execInit]
    exact sameControlOutcome_accepting h hnext
  | update len =>
    have hneeds : State.SameControl { x with remaining := len } { y with remaining := len } := { h with remaining := rfl }
    simp only [exec, execUpdate]
    exact sameControlOutcome_accepting h (sameControlOutcome_requiringLive h hneeds.absorbOffered)
  | final =>
    have hnext : State.SameControl { x with eng := x.eng.finalize } { y with eng := y.eng.finalize } :=
      { h with eng := h.eng.finalize }
    simp only [exec, execFinal]
    exact sameControlOutcome_accepting h (sameControlOutcome_requiringLive h hnext)

theorem sameControlOutcome_acceptNext {x y : State} (h : x.SameControl y) :
    sameControlOutcome (acceptNext x) (acceptNext y) := by
  unfold acceptNext
  rw [h.cmd]
  split
  · exact h
  · unfold acceptWord
    split
    · exact sameControlOutcome_exec (h.withCommands _) _
    · exact (h.withCommands _).raise _

/-- Settles O28: every choice a step makes reads what the two machines agree on, and every operation keeps the
agreement. -/
theorem controlIsIndependentOfTheData : Obligations.ControlIsIndependentOfTheData := by
  intro x y h
  unfold step turn
  rw [h.rst, h.eng.fault, h.eng.fcode, h.remaining]
  split
  · exact h.takeReset
  · split
    · rfl
    · split
      · exact sameControlOutcome_acceptNext h
      · exact h.absorbOffered

end Sys2Proof.Machine
end

section
/-! One step: what it executes, what it takes from the ports, and where it leads (10 R26, R29, 30 R58, R62, R66). -/

namespace Sys2Proof.Machine

/-! ### Which command a step executes -/

/-- A word that decodes to a command is executed as that command (30 R66). -/
theorem acceptWord_instr {w : Word} {i : Instr} (hd : decode w = .instr i) (s : State) : acceptWord w s = exec i s := by
  rw [acceptWord, hd]

theorem step_of_decode {s : State} {w : Word} {ws : List Word} {i : Instr} (hrst : s.ports.rst = false)
    (hr : cmdReady s = true) (hw : s.ports.cmd = w :: ws) (hd : decode w = .instr i) :
    step s = exec i (s.withCommands ws) :=
  (step_cmdReady_cons hrst hr hw).trans (acceptWord_instr hd _)

/-- Settles O8: the ready engine accepts the word, and accepting it executes what it decodes to. -/
theorem stepRunsTheDecodedCommand : Obligations.StepRunsTheDecodedCommand :=
  fun _ _ _ _ => step_of_decode

theorem decode_of_decodeTableWord {nbits w : Nat} {i : Instr} (h : decodeTableWord nbits w = some i) :
    decode (BitVec.ofNat 32 (w % 2 ^ nbits)) = .instr i := by
  unfold decodeTableWord at h
  dsimp only at h
  split at h
  case isTrue =>
    split at h
    case h_1 j hd => cases h; exact hd
    case h_2 => cases h
  case isFalse => cases h

theorem cmdReady_presentFirst {s : State} (hf : s.eng.fault = false) (w : Word) : cmdReady (s.presentFirst w) = true :=
  (cmdReady_iff _).2 ⟨hf, rfl⟩

/-- Settles O9: the placed word is the first one presented to a ready engine. -/
theorem placedWordIsExecuted : Obligations.PlacedWordIsExecuted := by
  intro s w i hf hd _
  exact step_of_decode (s.presentFirst_rst _) (cmdReady_presentFirst hf _) (s.presentFirst_cmd _)
    (decode_of_decodeTableWord hd)

/-- Settles O10: with no word on the channel the turn of a ready engine is idle. -/
theorem idleEngineWaits : Obligations.IdleEngineWaits := by
  intro s hrst hr hcmd
  obtain ⟨hf, hidle⟩ := (cmdReady_iff s).1 hr
  simp only [step, turn, hrst, hf, hidle, acceptNext, hcmd, Bool.false_eq_true, if_false, if_true]

/-- An executing UPDATE takes what is presented (41 R86). -/
theorem step_waiting {s : State} (hrst : s.ports.rst = false) (hf : s.eng.fault = false) (hwait : s.remaining ≠ 0) :
    step s = .next s.absorbOffered := by
  simp only [step, turn, hrst, hf, hwait, Bool.false_eq_true, if_false]

/-! ### HALTED -/

theorem accepting_halted {s : State} (hf : s.eng.fault = true) (body : State → Host.Outcome State Fault Refusal) :
    accepting s body = .fault (.halted s.eng.fcode) := by
  rw [accepting, if_pos hf]

theorem exec_halted {s : State} (hf : s.eng.fault = true) (i : Instr) : exec i s = .fault (.halted s.eng.fcode) := by
  cases i with
  | init => rw [exec, execInit, accepting_halted hf]
  | update len => rw [exec, execUpdate, accepting_halted hf]
  | final => rw [exec, execFinal, accepting_halted hf]

theorem step_halted {s : State} (hrst : s.ports.rst = false) (hf : s.eng.fault = true) :
    step s = .fault (.halted s.eng.fcode) := by
  simp only [step, turn, hrst, hf, Bool.false_eq_true, if_false, if_true]

/-- Settles O50: in HALTED both ready signals are 0, the ports are specified, and every command stops by name. -/
theorem haltedAcceptsNothing : Obligations.HaltedAcceptsNothing := by
  intro s hf
  have hports : portsSpecified s = true := by rw [portsSpecified, hf, Bool.or_true]
  have hdin : dinReady s = false := by rw [dinReady, hf]; rfl
  exact ⟨cmdReady_of_fault hf, hdin, statusPort_specified hports, digestPort_specified hports,
    fun hrst => step_halted hrst hf, exec_halted hf⟩

/-! ### What a step takes from the ports -/

/-- A command leaves the command channel alone, and only an UPDATE in LIVE takes data (30 R62). -/
theorem exec_ports {i : Instr} {s t : State} (h : exec i s = .next t) :
    t.ports.cmd = s.ports.cmd ∧
    (t.ports.din = s.ports.din ∨
      ∃ len, i = .update len ∧ s.eng.live = true ∧ t.ports.din = s.ports.din.drop len) := by
  obtain ⟨-, ⟨-, rfl⟩ | ⟨len, hi, hl, rfl⟩ | ⟨-, -, rfl⟩ | ⟨-, -, rfl⟩⟩ := exec_next_cases h
  · exact ⟨rfl, .inl rfl⟩
  · exact ⟨rfl, .inr ⟨len, hi, hl, rfl⟩⟩
  · exact ⟨rfl, .inl rfl⟩
  · exact ⟨rfl, .inl rfl⟩

/-- Settles O11: a word is taken by an idle engine only; data by a waiting UPDATE, or by one that starts in LIVE. -/
theorem portsAcceptOnlyWhenReady : Obligations.PortsAcceptOnlyWhenReady := by
  intro s t h
  rcases step_next_cases h with ⟨-, rfl⟩ | ⟨hrst, hf, ⟨-, -, rfl⟩ | ⟨w, ws, why, hidle, hw, -, rfl⟩ |
    ⟨w, ws, i, hidle, hw, hd, hi⟩ | ⟨hwait, rfl⟩⟩
  · exact ⟨.inl rfl, ⟨0, rfl⟩, fun hne => absurd rfl hne⟩
  · exact ⟨.inl rfl, ⟨0, rfl⟩, fun hne => absurd rfl hne⟩
  · exact ⟨.inr ⟨hrst, (cmdReady_iff s).2 ⟨hf, hidle⟩, w, hw⟩, ⟨0, rfl⟩, fun hne => absurd rfl hne⟩
  · have hr : cmdReady s = true := (cmdReady_iff s).2 ⟨hf, hidle⟩
    obtain ⟨hcmd, hdin⟩ := exec_ports hi
    have htaken : s.ports.cmd = w :: t.ports.cmd := by rw [hcmd, hw, State.withCommands_cmd]
    refine ⟨.inr ⟨hrst, hr, w, htaken⟩, ?_⟩
    rcases hdin with hsame | ⟨len, rfl, hl, hdrop⟩
    · exact ⟨⟨0, hsame⟩, fun hne => absurd hsame hne⟩
    · exact ⟨⟨len, hdrop⟩, fun _ => ⟨hrst, .inr ⟨hr, hl, len, by rw [(encode_of_decode hd).2, htaken]⟩⟩⟩
  · have hdin : dinReady s = true := by simp [dinReady, hf, hwait]
    exact ⟨.inl rfl, ⟨s.remaining, rfl⟩, fun _ => ⟨hrst, .inl hdin⟩⟩

/-! ### The lifecycle -/

theorem condition_eq_halted_iff {e : Engine} : condition e = .halted ↔ e.fault = true := by
  unfold condition; cases e.fault <;> cases e.live <;> simp

theorem condition_eq_live_iff {e : Engine} : condition e = .live ↔ e.fault = false ∧ e.live = true := by
  unfold condition; cases e.fault <;> cases e.live <;> simp

theorem condition_eq_void_iff {e : Engine} : condition e = .void ↔ e.fault = false ∧ e.live = false := by
  unfold condition; cases e.fault <;> cases e.live <;> simp

theorem condition_raise (e : Engine) (c : CommandFault) : condition (e.raise c) = .halted :=
  condition_eq_halted_iff.2 rfl

/-- Absorbing moves neither `FAULT` nor `LIVE` (41 R82). -/
theorem condition_absorbAll (e : Engine) (bs : List Byte) : condition (e.absorbAll bs) = condition e := by
  rw [condition, Engine.absorbAll_fault, Engine.absorbAll_live, condition]

/-- Without RESET and without a word to accept, a step keeps the condition. -/
theorem condition_of_no_word {s t : State} (h : step s = .next t) (hrst : s.ports.rst = false)
    (hnone : s.remaining ≠ 0 ∨ s.ports.cmd = []) : condition t.eng = condition s.eng := by
  rcases step_next_cases h with ⟨hrst', -⟩ | ⟨-, -, ⟨-, -, rfl⟩ | ⟨w, ws, -, hidle, hw, -, -⟩ |
    ⟨w, ws, -, hidle, hw, -, -⟩ | ⟨-, rfl⟩⟩
  · simp [hrst] at hrst'
  · rfl
  · simp [hidle, hw] at hnone
  · simp [hidle, hw] at hnone
  · exact condition_absorbAll ..

/-- Settles O51: RESET goes first, a halted engine takes no other step, and the accepted word decides what follows. -/
theorem lifecycleTransitions : Obligations.LifecycleTransitions := by
  intro s t h
  refine ⟨fun hrst => ?reset, fun hrst => ?noReset⟩
  case reset =>
    cases (step_rst hrst).symm.trans h
    rfl
  case noReset =>
    have hf : s.eng.fault = false := (step_without_rst h hrst).1
    refine ⟨fun hhalted => ?_, condition_of_no_word h hrst, fun w ws hidle hw => ?accepted⟩
    · simp [condition_eq_halted_iff.1 hhalted] at hf
    case accepted =>
      have hr : cmdReady s = true := (cmdReady_iff s).2 ⟨hf, hidle⟩
      have hr' : cmdReady (s.withCommands ws) = true := hr
      have hexec {i : Instr} (hd : decode w = .instr i) : exec i (s.withCommands ws) = .next t :=
        (step_of_decode hrst hr hw hd).symm.trans h
      refine ⟨fun hd => ?init, fun len hd => ⟨fun hlive => ?updateLive, fun hvoid => ?updateVoid⟩,
        fun hd => ⟨fun hlive => ?finalLive, fun hvoid => ?finalVoid⟩, fun why hd => ?reserved⟩
      case init =>
        cases (exec_init_ready hr').symm.trans (hexec hd)
        exact condition_eq_live_iff.2 ⟨hf, rfl⟩
      case updateLive =>
        cases (exec_update_live hr' (condition_eq_live_iff.1 hlive).2 len).symm.trans (hexec hd)
        exact (condition_absorbAll ..).trans hlive
      case updateVoid =>
        cases (exec_update_void hr' (condition_eq_void_iff.1 hvoid).2 len).symm.trans (hexec hd)
        exact ⟨condition_raise .., rfl⟩
      case finalLive =>
        cases (exec_final_live hr' (condition_eq_live_iff.1 hlive).2).symm.trans (hexec hd)
        exact ⟨condition_eq_void_iff.2 ⟨(Engine.finalize_fault _).trans hf, rfl⟩, rfl⟩
      case finalVoid =>
        cases (exec_final_void hr' (condition_eq_void_iff.1 hvoid).2).symm.trans (hexec hd)
        exact ⟨condition_raise .., rfl⟩
      case reserved =>
        cases ((step_cmdReady_cons hrst hr hw).trans (acceptWord_reserved hd _)).symm.trans h
        exact ⟨condition_raise .., rfl⟩

/-! ### Who writes the digest -/

/-- Of the commands only FINAL in LIVE writes `DIGEST` and `DVALID` (10 R26, R33). -/
theorem exec_digest {i : Instr} {s t : State} (h : exec i s = .next t) :
    (i = .final ∧ s.eng.live = true ∧ t.ports.cmd = s.ports.cmd ∧ t.eng.dvalid = true) ∨
    (t.eng.digest = s.eng.digest ∧ t.eng.dvalid = s.eng.dvalid) := by
  obtain ⟨-, ⟨-, rfl⟩ | ⟨len, -, -, rfl⟩ | ⟨hi, hl, rfl⟩ | ⟨-, -, rfl⟩⟩ := exec_next_cases h
  · exact .inr ⟨rfl, rfl⟩
  · exact .inr ⟨Engine.absorbAll_digest .., Engine.absorbAll_dvalid ..⟩
  · exact .inl ⟨hi, hl, rfl, rfl⟩
  · exact .inr ⟨rfl, rfl⟩

/-- Settles O52: RESET clears both, a command writes them only as FINAL in LIVE, and then its word is FINAL's. -/
theorem onlyFinalAndResetWriteTheDigest : Obligations.OnlyFinalAndResetWriteTheDigest := by
  intro s t h
  rcases step_next_cases h with ⟨hrst, rfl⟩ | ⟨hrst, hf, ⟨-, -, rfl⟩ | ⟨w, ws, why, -, -, -, rfl⟩ |
    ⟨w, ws, i, hidle, hw, hd, hi⟩ | ⟨-, rfl⟩⟩
  · exact .inl ⟨hrst, rfl, rfl⟩
  · exact .inr (.inr ⟨rfl, rfl⟩)
  · exact .inr (.inr ⟨rfl, rfl⟩)
  · rcases exec_digest hi with ⟨rfl, hl, hcmd, hvalid⟩ | hkept
    · refine .inr (.inl ⟨hrst, (cmdReady_iff s).2 ⟨hf, hidle⟩, hl, ?_, hvalid⟩)
      rw [(encode_of_decode hd).2, hcmd, hw, State.withCommands_cmd]
    · exact .inr (.inr hkept)
  · exact .inr (.inr ⟨Engine.absorbAll_digest .., Engine.absorbAll_dvalid ..⟩)

end Sys2Proof.Machine
end

section
/-! What a TRANSFORM leaves: the window, the roles, and `H` (42 R91, 43 R102 to R106). -/

namespace Sys2Proof.Machine

/-- Settles O30: the window keeps holding the schedule through the rounds; below `W_16` those words are the block's. -/
theorem windowHoldsTheSchedule : Obligations.WindowHoldsTheSchedule := by
  intro m h t ht
  have hround : (Pipeline.runRounds t (loadBlock m h)).t.toNat = t := runRounds_loadBlock_t m h (by omega)
  have hwindow := runRounds_holdsSchedule m h (n := t) (by omega)
  refine ⟨?index, fun i hlow hhigh => hwindow i (by omega) (by omega), fun i hlow hhigh => ?unused, ?scheduled⟩
  case index =>
    rw [Pipeline.runRounds_t]
    exact BitVec.zero_add _
  case unused => rw [hwindow i (by omega) (by omega), schedule_getD_of_le _ hhigh]
  case scheduled => exact Pipeline.sched_holdsSchedule hround ht hwindow t (by omega) (by omega)

/-- Settles O35: each role of the next round is a role of this one after the two writes of ROUND. -/
theorem rotatingIndicesEqualShuffling : Obligations.RotatingIndicesEqualShuffling :=
  fun p _ ht _ => p.rolesAt_round ht

/-- TRANSFORM writes `H` and the transients, and nothing else (43 R106). -/
theorem Engine.transform_frame (e : Engine) :
    e.transform = { e with h := e.transform.h, v := e.transform.v, win := e.transform.win, t := e.transform.t } := rfl

/-- Settles O36: `H` is the end of the rounds added to its start, and the add-back writes the transients besides. -/
theorem transformIsCompress : Obligations.TransformIsCompress :=
  fun e => ⟨e.transform_h, e.transform_frame⟩

theorem Pipeline.allRounds_eq (p : Pipeline) : p.allRounds = Pipeline.runRounds 80 p := by
  unfold Pipeline.allRounds
  rfl

theorem Engine.transform_v (e : Engine) : e.transform.v = (loadBlock e.buf e.h).allRounds.v := rfl

theorem Engine.transform_win_eq (e : Engine) : e.transform.win = (loadBlock e.buf e.h).allRounds.win := rfl

theorem Pipeline.winAt_eq_getElem (p : Pipeline) {j : Nat} (i : Fin 16) (h : j % 16 = i.val) : p.winAt j = p.win[i] := by
  simp [Pipeline.winAt, h]

/-- The last sixteen schedule words stay in the window, each in its slot (10 R35). -/
theorem Engine.transform_win (e : Engine) (i : Fin 16) :
    e.transform.win[i] = (schedule e.buf.block).getD (64 + i.val) 0 := by
  have hlast := runRounds_holdsSchedule e.buf e.h (Nat.le_refl 80) (64 + i.val) (by omega) (by omega)
  rw [Pipeline.winAt_eq_getElem _ i (by omega)] at hlast
  rw [Engine.transform_win_eq, Pipeline.allRounds_eq, hlast]

/-- Settles O37: the roles after round 79, the last window, and the round index. -/
theorem transformLeavesItsTransients : Obligations.TransformLeavesItsTransients := by
  refine fun e => ⟨?roles, e.transform_win, e.transform_t⟩
  rw [Engine.transform_v, rolesOf_allRounds, allRoundsOf]

end Sys2Proof.Machine
end

section
/-! Rotation, and the bytes of `BUF` as big-endian values (00 R11, 20 R44 to R49). -/

namespace Sys2Proof.Machine

/-! ### Rotation -/

/-- The part of a word that a left shift by `n` keeps. -/
theorem mul_two_pow_mod_word (a : Nat) {n : Nat} (hn : n < 32) :
    a * 2 ^ n % 2 ^ 32 = a % 2 ^ (32 - n) * 2 ^ n := by
  rw [← Nat.mul_mod_mul_right, ← Nat.pow_add, Nat.sub_add_cancel hn.le]

/-- The bits that leave a word at the top come in below the shifted ones. -/
theorem word_toNat_div_lt (x : Word) {n : Nat} (hn : n < 32) : x.toNat / 2 ^ (32 - n) < 2 ^ n := by
  apply Nat.div_lt_of_lt_mul
  rw [← Nat.pow_add, Nat.sub_add_cancel hn.le]
  exact x.isLt

/-- The library's rotation as a sum: what the shift keeps, and what left at the top. -/
theorem rotateLeft_toNat_eq_add (x : Word) {n : Nat} (hn : n < 32) :
    (x.rotateLeft n).toNat = x.toNat * 2 ^ n % 2 ^ 32 + x.toNat / 2 ^ (32 - n) := by
  rw [BitVec.toNat_rotateLeft, Nat.mod_eq_of_lt hn, Nat.shiftLeft_eq, Nat.shiftRight_eq_div_pow,
    mul_two_pow_mod_word _ hn, ← Nat.shiftLeft_eq, Nat.shiftLeft_add_eq_or_of_lt (word_toNat_div_lt x hn)]

/-- The rotation of the spec is the library's (00 R11). -/
theorem rotl_eq_rotateLeft (x : Word) {n : Nat} (hn : n < 32) : rotl x n = x.rotateLeft n := by
  rw [rotl, ← rotateLeft_toNat_eq_add x hn, BitVec.ofNat_toNat, BitVec.setWidth_eq]

theorem rotl_toNat (x : Word) {n : Nat} (hn : n < 32) :
    (rotl x n).toNat = x.toNat * 2 ^ n % 2 ^ 32 + x.toNat / 2 ^ (32 - n) := by
  rw [rotl_eq_rotateLeft x hn, rotateLeft_toNat_eq_add x hn]

/-- Where a rotation moves each bit (00 R11). -/
theorem getLsbD_rotl (x : Word) {n i : Nat} (hn : n < 32) (hi : i < 32) :
    (rotl x n).getLsbD ((i + n) % 32) = x.getLsbD i := by
  rw [rotl_eq_rotateLeft x hn, BitVec.getLsbD_rotateLeft, Nat.mod_eq_of_lt hn]
  by_cases hwrap : i + n < 32
  · rw [Nat.mod_eq_of_lt hwrap, decide_eq_false (by omega), decide_eq_true hwrap, cond_false, Bool.true_and,
      Nat.add_sub_cancel]
  · rw [show (i + n) % 32 = i + n - 32 by omega, decide_eq_true (by omega), cond_true]
    congr 1
    omega

theorem rotl_ones {n : Nat} (hn : n < 32) : rotl 0xFFFFFFFF n = 0xFFFFFFFF := by
  apply BitVec.eq_of_getLsbD_eq
  intro j hj
  obtain ⟨i, hi, rfl⟩ : ∃ i < 32, (i + n) % 32 = j := ⟨(j + 32 - n) % 32, by omega, by omega⟩
  rw [getLsbD_rotl _ hn hi, getLsbD_ones hi, getLsbD_ones hj]

theorem rotl_zero (n : Nat) : rotl 0 n = 0 := by
  simp [rotl]

/-- A left rotation by 30 is a right rotation by 2: each is the two shifts, joined. -/
theorem rotl_thirty (x : Word) : rotl x 30 = x.rotateRight 2 := by
  rw [rotl_eq_rotateLeft x (by decide)]
  exact BitVec.or_comm (x <<< 30) (x >>> 2)

/-- Settles O1: the rotation is the library's, so each bit has its place; all ones and zero have the same bit everywhere. -/
theorem rotationMovesEveryBit : Obligations.RotationMovesEveryBit :=
  ⟨fun x _ _ hn => ⟨rotl_toNat x hn, fun _ => getLsbD_rotl x hn, rotl_ones hn, rotl_zero _⟩, by decide, by decide,
    rotl_thirty⟩

/-! ### Big-endian reads and writes -/

/-- The big-endian value as the sum of the bytes, each at its place (20 R48). -/
theorem beValue_map_range (f : Nat → Byte) (n : Nat) :
    beValue ((List.range n).map f) = ((List.range n).map fun j => (f j).toNat * 2 ^ (8 * (n - 1 - j))).sum := by
  induction n with
  | zero => rfl
  | succ n ih =>
    have hshift : (List.range n).map (fun j => (f j).toNat * 2 ^ (8 * (n + 1 - 1 - j))) =
        (List.range n).map fun j => (f j).toNat * 2 ^ (8 * (n - 1 - j)) * 2 ^ 8 := by
      refine List.map_congr_left fun j hj => ?_
      have hj : j < n := List.mem_range.1 hj
      rw [show 8 * (n + 1 - 1 - j) = 8 * (n - 1 - j) + 8 by omega, Nat.pow_add, Nat.mul_assoc]
    rw [List.range_succ, List.map_append, List.map_append, List.sum_append, beValue_append, ih, hshift,
      List.sum_map_mul_right]
    simp [beValue]

/-- The last byte of an image is the last base-256 digit, and the bytes before it are the image of the rest (20 R49). -/
theorem beBytes_succ (n v : Nat) : beBytes (n + 1) v = beBytes n (v / 2 ^ 8) ++ [BitVec.ofNat 8 v] := by
  have hdigit : ∀ j ∈ List.range n, beByte (n + 1) v j = beByte n (v / 2 ^ 8) j := by
    intro j hj
    have hj : j < n := List.mem_range.1 hj
    rw [beByte, beByte, Nat.div_div_eq_div_mul, ← Nat.pow_add,
      show 8 * (n + 1 - 1 - j) = 8 + 8 * (n - 1 - j) by omega]
  rw [beBytes, beBytes, List.range_succ, List.map_append, List.map_congr_left hdigit]
  simp [beByte]

/-- An `n`-byte image holds its value modulo `2^(8n)` (20 R48, R49). -/
theorem beValue_beBytes (n v : Nat) : beValue (beBytes n v) = v % 2 ^ (8 * n) := by
  induction n generalizing v with
  | zero => simp [beBytes, beValue, Nat.mod_one]
  | succ n ih =>
    have hpow : 2 ^ (8 * (n + 1)) = 2 ^ 8 * 2 ^ (8 * n) := by rw [← Nat.pow_add]; congr 1; omega
    rw [beBytes_succ, beValue_append, ih, hpow, Nat.mod_mul]
    simp [beValue]
    omega

/-- The bytes of an image, by index (20 R49). -/
theorem beBytes_getD (v : Nat) {n j : Nat} (hj : j < n) : (beBytes n v).getD j 0 = beByte n v j := by
  simp [beBytes, hj]

/-- Settles O14: a read sums the bytes; a write copies the image in, where it is read back byte by byte and as a value. -/
theorem bufferReadsAndWrites : Obligations.BufferReadsAndWrites := by
  intro m k n v hbound
  have hlen : k.toNat + (beBytes n v).length ≤ 64 := by rw [beBytes_length]; exact hbound
  refine ⟨beValue_map_range _ n, fun o => ?write, ?readBack⟩
  case write =>
    rw [Memory.memWrite, Memory.read_copyIn _ _ _ hlen, beBytes_length]
    split
    case isTrue hin => rw [beBytes_getD _ (by omega), beByte]
    case isFalse => rfl
  case readBack =>
    have hbytes := Memory.bytes_copyIn m k _ hlen
    rw [beBytes_length] at hbytes
    rw [Memory.memRead, Memory.memWrite, hbytes, beValue_beBytes]

/-! ### The words of a loaded block -/

/-- A four-byte read, byte by byte (20 R44). -/
theorem Memory.memRead_four (m : Memory) (a : Nat) :
    m.memRead (BitVec.ofNat 6 a) 4 =
      (m.read (BitVec.ofNat 6 a)).toNat * 2 ^ 24 + (m.read (BitVec.ofNat 6 (a + 1))).toNat * 2 ^ 16 +
      (m.read (BitVec.ofNat 6 (a + 2))).toNat * 2 ^ 8 + (m.read (BitVec.ofNat 6 (a + 3))).toNat := by
  simp only [Memory.memRead, Memory.bytes, beValue_map_range, BitVec.ofNat_add]
  simp [List.range_succ, Nat.add_assoc]

theorem loadBlock_win_toNat (m : Memory) (h : Vector Word 5) (i : Fin 16) :
    (loadBlock m h).win[i].toNat = m.memRead (BitVec.ofNat 6 (4 * i.val)) 4 := by
  have hlt : m.memRead (BitVec.ofNat 6 (4 * i.val)) 4 < 2 ^ 32 := by
    have := beValue_lt (m.bytes (BitVec.ofNat 6 (4 * i.val)) 4)
    rwa [Memory.bytes_length] at this
  simpa [loadBlock] using hlt

/-- Byte `k` of a loaded word is the buffer byte it was read from (20 R47). -/
theorem wordByte_loadBlock (m : Memory) (h : Vector Word 5) (i : Fin 16) (k : Fin 4) :
    wordByte (loadBlock m h).win[i] k = m.read (BitVec.ofNat 6 (4 * i.val + k.val)) := by
  have hbyte (k : Offset) : (m.read k).toNat < 2 ^ 8 := (m.read k).isLt
  have h0 := hbyte (BitVec.ofNat 6 (4 * i.val))
  have h1 := hbyte (BitVec.ofNat 6 (4 * i.val + 1))
  have h2 := hbyte (BitVec.ofNat 6 (4 * i.val + 2))
  have h3 := hbyte (BitVec.ofNat 6 (4 * i.val + 3))
  apply BitVec.eq_of_toNat_eq
  rw [wordByte_toNat, loadBlock_win_toNat, Memory.memRead_four]
  fin_cases k <;> simp <;> omega

/-- Settles O15: a loaded word is a four-byte read, and its bytes are the bytes read. -/
theorem blockWordsAliasTheBufferBytes : Obligations.BlockWordsAliasTheBufferBytes := by
  intro m h i
  refine ⟨?value, ?word, fun k => wordByte_loadBlock m h i k⟩
  case value => rw [loadBlock_win_toNat, Memory.memRead_four]
  case word => rw [← winAt_loadBlock m h i.isLt, Pipeline.winAt_eq_getElem _ i (Nat.mod_eq_of_lt i.isLt)]

end Sys2Proof.Machine
end

section
/-! UPDATE: complete, waiting and resumed (41 R77, R78, R82, R86). -/

namespace Sys2Proof.Machine

/-! ### The chunked form, and no bytes at all -/

/-- Settles O23: the loop of the pseudocode absorbs block by block, and the copies before and after it the rest. -/
theorem chunkedIsByteSerial : Obligations.ChunkedIsByteSerial := Engine.updateChunked_eq_absorbAll

/-- Settles O21: in LIVE nothing is absorbed and nothing is outstanding; in VOID every length faults. -/
theorem zeroLengthUpdate : Obligations.ZeroLengthUpdate := by
  refine fun s hr => ⟨fun hl => ?live, fun hl => exec_update_void hr hl 0⟩
  obtain ⟨e, n, p, k⟩ := s
  obtain rfl : n = 0 := ((cmdReady_iff _).1 hr).2
  rw [exec_update_live hr hl, State.absorbOffered_of_le (Nat.zero_le _)]
  rfl

/-! ### What absorbing leaves alone -/

/-- Absorbing writes the offsets from the pending one on, one for each byte, and no other (20 R50). -/
theorem Engine.absorbAll_read_other {e : Engine} {bs : List Byte} {o : Offset}
    (ho : ∀ k, k < bs.length → o ≠ pendingOffset e.count + BitVec.ofNat 6 k) :
    (e.absorbAll bs).buf.read o = e.buf.read o := by
  induction bs generalizing e with
  | nil => rfl
  | cons x bs ih =>
    have hfirst : o ≠ pendingOffset e.count := by simpa using ho 0 (Nat.succ_pos _)
    have hrest : ∀ k, k < bs.length → o ≠ pendingOffset (e.absorb x).count + BitVec.ofNat 6 k := by
      intro k hk
      have hnext : pendingOffset (e.absorb x).count + BitVec.ofNat 6 k =
          pendingOffset e.count + BitVec.ofNat 6 (k + 1) := by
        rw [Engine.absorb_count, pendingOffset_add, BitVec.add_assoc, Nat.add_comm k 1, BitVec.ofNat_add]
        rfl
      rw [hnext]
      exact ho (k + 1) (Nat.succ_lt_succ hk)
    rw [Engine.absorbAll_cons, ih hrest, Engine.absorb_buf, Memory.read_write_ne _ _ hfirst]

/-- Settles O20: the engine absorbs `min LEN` of the presented bytes; below a block's end it only stores them. -/
theorem updateFrame : Obligations.UpdateFrame := by
  intro s t len hl h
  obtain ⟨hr, -⟩ := exec_next_cases h
  cases (exec_update_live hr hl len).symm.trans h
  have htaken : (s.ports.din.take len).length = min len s.ports.din.length := List.length_take
  refine ⟨Engine.absorbAll_digest .., Engine.absorbAll_dvalid .., Engine.absorbAll_live .., Engine.absorbAll_fault ..,
    Engine.absorbAll_fcode .., Engine.absorbAll_bitlen .., rfl, rfl, rfl, fun o ho => ?buffer, fun hshort => ?noBlock⟩
  case buffer => exact Engine.absorbAll_read_other fun k hk => ho k (htaken ▸ hk)
  case noBlock =>
    have hstored : s.eng.absorbAll (s.ports.din.take len) = s.eng.stored (s.ports.din.take len) :=
      Engine.absorbAll_short _ _ (by rw [htaken]; exact hshort)
    rw [State.absorbOffered_eng, acceptable, hstored]
    exact ⟨rfl, rfl, rfl, rfl⟩

/-! ### Waiting and resuming -/

/-- With at most as many bytes presented as are needed, all of them are taken (30 R62). -/
theorem acceptable_of_le {s : State} (h : s.ports.din.length ≤ s.remaining) : acceptable s = s.ports.din :=
  List.take_of_length_le h

theorem dinReady_iff (s : State) : dinReady s = true ↔ s.eng.fault = false ∧ s.remaining ≠ 0 := by
  simp [dinReady]

/-- Settles O26: every presented byte is taken, and the missing ones are outstanding. -/
theorem shortSupplyWaits : Obligations.ShortSupplyWaits := by
  intro s len hr hl hshort
  have hf : s.eng.fault = false := ((cmdReady_iff s).1 hr).1
  refine ⟨_, exec_update_live hr hl len, ?eng, rfl, ?ports, ?cmdReady, ?dinReady⟩
  case eng =>
    rw [State.absorbOffered_eng, acceptable_of_le (s := { s with remaining := len }) hshort.le]
  case ports =>
    rw [State.absorbOffered, List.drop_of_length_le hshort.le]
  case cmdReady =>
    rw [← Bool.not_eq_true, State.cmdReady_absorbOffered_iff]
    exact fun hcomplete => absurd hcomplete.2 (Nat.not_le_of_lt hshort)
  case dinReady =>
    exact (dinReady_iff _).2 ⟨(Engine.absorbAll_fault ..).trans hf, Nat.sub_ne_zero_of_lt hshort⟩

/-- Settles O56: a waiting UPDATE takes the presented bytes it still needs, and ABSORB writes none of the rest. -/
theorem waitingUpdateAbsorbsWhatComes : Obligations.WaitingUpdateAbsorbsWhatComes := by
  intro s hrst hf hwait
  refine ⟨_, step_waiting hrst hf hwait, rfl, rfl, rfl, Engine.absorbAll_digest .., Engine.absorbAll_bitlen ..,
    Engine.absorbAll_live .., Engine.absorbAll_dvalid .., (Engine.absorbAll_fault ..).trans hf,
    Engine.absorbAll_fcode .., ?_⟩
  rw [State.cmdReady_absorbOffered_iff, and_iff_right hf]

/-- Absorbing what is there, and then what comes, takes the bytes that one longer supply would have given. -/
theorem State.absorbOffered_supply {s : State} (hshort : s.ports.din.length ≤ s.remaining) (q : List Byte) :
    (s.absorbOffered.supply q).absorbOffered.eng = (s.supply q).absorbOffered.eng ∧
    (s.absorbOffered.supply q).absorbOffered.ports = (s.supply q).absorbOffered.ports := by
  have hempty : s.absorbOffered.ports.din = [] := List.drop_of_length_le hshort
  constructor
  · simp only [State.absorbOffered_eng, acceptable, State.supply_eng, State.supply_din, State.supply_remaining,
      State.absorbOffered_remaining, hempty, List.nil_append, List.take_append, Engine.absorbAll_append]
  · simp only [State.absorbOffered, State.supply, List.drop_append, List.drop_of_length_le hshort, List.nil_append]

/-- Settles O27: the resumed UPDATE takes the bytes the one supply would have given, and with them none is missing. -/
theorem waitingUpdateResumes : Obligations.WaitingUpdateResumes := by
  intro s len q hrst hr hl hshort henough
  have hf : s.eng.fault = false := ((cmdReady_iff s).1 hr).1
  have hwait : len - s.ports.din.length ≠ 0 := Nat.sub_ne_zero_of_lt hshort
  obtain ⟨heng, hports⟩ := State.absorbOffered_supply (s := { s with remaining := len }) hshort.le q
  have hempty : s.ports.din.drop len = [] := List.drop_of_length_le hshort.le
  have hf' := (Engine.absorbAll_fault s.eng (s.ports.din.take len)).trans hf
  refine ⟨_, _, _, exec_update_live hr hl len, step_waiting hrst hf' hwait, exec_update_live (s := s.supply q) hr hl len,
    heng, hports, ?resumed, ?atOnce, ?rest⟩
  case resumed =>
    refine (State.cmdReady_absorbOffered_iff _).2 ⟨hf', ?_⟩
    rw [State.supply_remaining, State.absorbOffered_remaining, State.supply_din, State.absorbOffered_din, hempty,
      List.nil_append]
    exact Nat.sub_le_iff_le_add'.2 henough
  case atOnce =>
    refine (State.cmdReady_absorbOffered_iff _).2 ⟨hf, ?_⟩
    rw [State.supply_din, List.length_append]
    exact henough
  case rest =>
    rw [State.absorbOffered_din, State.supply_remaining, State.absorbOffered_remaining, State.supply_din,
      State.absorbOffered_din, hempty, List.nil_append]

end Sys2Proof.Machine
end

section
/-! Runs of commands: streams, restarts, and the calling protocol (30 R69, R70, 40 R74, R75, 41 R84, 60 R124). -/

namespace Sys2Proof.Machine

/-! ### The open stream -/

/-- Settles O24: each run absorbs the concatenation of its chunks. -/
theorem splittingTheStreamChangesNothing : Obligations.SplittingTheStreamChangesNothing := by
  intro s cs ds hr hl hcs hds hsame
  obtain ⟨t, ht, -, het⟩ := runCommands_updates hr hl hcs
  obtain ⟨u, hu, -, heu⟩ := runCommands_updates hr hl hds
  exact ⟨t, u, ht, hu, by rw [het, heu, hsame]⟩

/-- Bytes that do not fill a block, absorbed from offset 0, are the first bytes of `BUF` (10 R37). -/
theorem Engine.absorbAll_rest_bytes {e : Engine} {bs : List Byte} (hoff : (pendingOffset e.count).toNat = 0)
    (hlen : bs.length < 64) : (e.absorbAll bs).buf.bytes 0 bs.length = bs := by
  have hzero : pendingOffset e.count = 0 := BitVec.eq_of_toNat_eq hoff
  rw [Engine.absorbAll_short e bs (by omega), Engine.stored, hzero]
  exact Memory.bytes_copyIn _ 0 bs (by simpa using hlen.le)

/-- After a stream absorbed from `COUNT = 0` the first bytes of `BUF` are those past its whole blocks (10 R37). -/
theorem Engine.absorbAll_pending {e : Engine} (m : List Byte) (hc : e.count = 0) :
    (e.absorbAll m).buf.bytes 0 (m.length % 64) = m.drop (64 * (m.length / 64)) := by
  have hrest : (m.drop (64 * (m.length / 64))).length = m.length % 64 := by rw [List.length_drop]; omega
  have hwhole : (m.take (64 * (m.length / 64))).length % 64 = 0 := by rw [List.length_take]; omega
  rw [← hrest, ← congrArg e.absorbAll (List.take_append_drop (64 * (m.length / 64)) m), Engine.absorbAll_append]
  exact Engine.absorbAll_rest_bytes ((Engine.pendingOffset_absorbAll _ hc).trans hwhole) (by omega)

/-- INIT starts a stream at offset 0. -/
theorem Engine.pendingOffset_init (e : Engine) : (pendingOffset e.init.count).toNat = 0 := by
  rw [Engine.init_count]
  rfl

/-- Settles O25: the run is INIT and the absorption of the stream, which takes `H` along the chain, counts, and leaves
the rest pending. -/
theorem openStreamState : Obligations.OpenStreamState := by
  intro s chunks hr hfit
  obtain ⟨t, ht, hrt, het⟩ := runCommands_openCommands hr hfit
  refine ⟨t, ht, hrt, ?live, ?h, ?count, ?pending, ?digest, ?dvalid⟩ <;> rw [het]
  case live => rw [Engine.absorbAll_live, Engine.init_live]
  case h => rw [Engine.absorbAll_h _ s.eng.pendingOffset_init, Engine.init_h]
  case count => rw [Engine.absorbAll_count, Engine.init_count]; exact BitVec.zero_add _
  case pending => exact Engine.absorbAll_pending _ s.eng.init_count
  case digest => rw [Engine.absorbAll_digest, Engine.init_digest]
  case dvalid => rw [Engine.absorbAll_dvalid, Engine.init_dvalid]

/-! ### Restarts -/

/-- The digest of the empty stream (40 R74): its one padded block, evaluated. -/
theorem digestOf_nil : digestOf [] = #v[0xda, 0x39, 0xa3, 0xee, 0x5e, 0x6b, 0x4b, 0x0d, 0x32, 0x55, 0xbf, 0xef, 0x95,
    0x60, 0x18, 0x90, 0xaf, 0xd8, 0x07, 0x09] := by
  decide +kernel

theorem Engine.init_init (e : Engine) : e.init.init = e.init := rfl

/-- Settles O17: INIT writes constants only, and FINAL after it is `DIGEST` of the stream with no chunks. -/
theorem initTwiceAndEmptyStream : Obligations.InitTwiceAndEmptyStream := by
  intro s hr
  obtain ⟨u, hu, hru, heu⟩ := runCommands_ofInit hr
  obtain ⟨t, ht, -, het⟩ := runCommands_ofInit hru
  refine ⟨⟨t, u, (hu _).trans (ht []), hu [], by rw [het, heu, Engine.init_init]⟩, ?emptyStream⟩
  obtain ⟨v, hv, -, -, hdigest⟩ := digestOfTheStream s [] hr (by simp [chunksFit])
  exact ⟨v, hv, hdigest.trans digestOf_nil⟩

/-- Two buffers with the same first `n` bytes read the same there. -/
theorem Memory.read_eq_of_bytes_eq {m m' : Memory} {n : Nat} (h : m.bytes 0 n = m'.bytes 0 n) {k : Offset}
    (hk : k.toNat < n) : m.read k = m'.read k := by
  have hbyte (b : Memory) : (b.bytes 0 n).getD k.toNat 0 = b.read k := by simp [Memory.bytes, hk]
  rw [← hbyte m, h, hbyte m']

/-- Settles O18: what the open stream and its digest hold is given by the stream alone. -/
theorem restartForgetsThePast : Obligations.RestartForgetsThePast := by
  intro s s' chunks hr hr' hfit
  obtain ⟨t, ht, -, -, hh, hcount, hbuf, -, -⟩ := openStreamState s chunks hr hfit
  obtain ⟨t', ht', -, -, hh', hcount', hbuf', -, -⟩ := openStreamState s' chunks hr' hfit
  obtain ⟨u, hu, -, hvalid, hdigest⟩ := digestOfTheStream s chunks hr hfit
  obtain ⟨u', hu', -, hvalid', hdigest'⟩ := digestOfTheStream s' chunks hr' hfit
  refine ⟨t, t', u, u', ht, ht', hh.trans hh'.symm, hcount.trans hcount'.symm, fun k hk => ?pending, hu, hu',
    hdigest.trans hdigest'.symm, hvalid, hvalid'⟩
  have hoff : (pendingOffset t.eng.count).toNat = chunks.flatten.length % 64 := by
    rw [hcount, ← BitVec.zero_add (BitVec.ofNat 64 _), pendingOffset_add_toNat]
    exact congrArg (· % 64) (Nat.zero_add _)
  exact Memory.read_eq_of_bytes_eq (hbuf.trans hbuf'.symm) (hoff ▸ hk)

/-! ### The calling protocol -/

/-- A supplied command is one of the three of 30 R69. -/
theorem Command.supplied_cases {c : Command} (h : c.supplied = true) :
    c = .ofInit ∨ (∃ bs, bs.length ≤ maxLen ∧ c = .ofUpdate bs) ∨ c = .ofFinal := by
  obtain ⟨i, data⟩ := c
  have hsupplied : i.wellFormed = true ∧ data.length = operandLen i := by simpa [Command.supplied] using h
  obtain ⟨hfits, hlen⟩ := hsupplied
  cases i with
  | init =>
    obtain rfl : data = [] := List.eq_nil_of_length_eq_zero hlen
    exact .inl rfl
  | update len =>
    obtain rfl : data.length = len := hlen
    exact .inr (.inl ⟨data, of_decide_eq_true hfits, rfl⟩)
  | final =>
    obtain rfl : data = [] := List.eq_nil_of_length_eq_zero hlen
    exact .inr (.inr rfl)

/-- A lawful command with its data completes, and what follows it stays lawful (60 R124). -/
theorem runCommands_lawful_cons {c : Command} {cs : List Command} {s : State} (hr : cmdReady s = true)
    (hc : c.supplied = true) (hlawful : lawful s.eng.live ((c :: cs).map Command.instr) = true) :
    ∃ t, runCommands (c :: cs) s = runCommands cs t ∧ cmdReady t = true ∧
      lawful t.eng.live (cs.map Command.instr) = true := by
  rcases Command.supplied_cases hc with rfl | ⟨bs, hfit, rfl⟩ | rfl
  · obtain ⟨t, ht, hrt, het⟩ := runCommands_ofInit hr
    exact ⟨t, ht cs, hrt, by rw [het]; exact hlawful⟩
  · obtain ⟨hl, hrest⟩ : s.eng.live = true ∧ lawful true (cs.map Command.instr) = true :=
      Bool.and_eq_true_iff.1 hlawful
    obtain ⟨t, ht, hrt, het⟩ := runCommands_ofUpdate hr hl hfit
    exact ⟨t, ht cs, hrt, by rw [het, Engine.absorbAll_live, hl]; exact hrest⟩
  · obtain ⟨hl, hrest⟩ : s.eng.live = true ∧ lawful false (cs.map Command.instr) = true :=
      Bool.and_eq_true_iff.1 hlawful
    obtain ⟨t, ht, hrt, het⟩ := runCommands_ofFinal hr hl
    exact ⟨t, ht cs, hrt, by rw [het]; exact hrest⟩

/-- Settles O46: command by command, a lawful run stays lawful and the engine ready. -/
theorem lawfulCommandsNeverFault : Obligations.LawfulCommandsNeverFault := by
  intro s cs hr hsupplied hlawful
  induction cs generalizing s with
  | nil => exact ⟨s, rfl, ((cmdReady_iff s).1 hr).1, hr⟩
  | cons c cs ih =>
    obtain ⟨u, hu, hru, hlu⟩ := runCommands_lawful_cons hr (hsupplied c List.mem_cons_self) hlawful
    obtain ⟨t, ht, hft, hrt⟩ := ih u hru (fun d hd => hsupplied d (List.mem_cons_of_mem _ hd)) hlu
    exact ⟨t, hu.trans ht, hft, hrt⟩

end Sys2Proof.Machine
end

section
/-! The padding, and FINAL as a function of the state at its start (44 R111 to R119). -/

namespace Sys2Proof.Machine

/-! ### The padded stream -/

/-- The count of zero bytes, for an offset (44 R112). -/
theorem zeroCount_offset {j : Nat} (hj : j < 64) : zeroCount j = (55 + 64 - j) % 64 := by
  unfold zeroCount; omega

theorem zeroCount_ends_at_55 (j : Nat) : (j + zeroCount j) % 64 = 55 := by
  unfold zeroCount; omega

@[simp] theorem pad_length (m : List Byte) : (pad m).length = m.length + zeroCount m.length + 9 := by
  rw [pad_eq_append, List.length_append, List.length_append, padMark_length, beBytes_length]
  omega

/-- Settles O41: the zeros bring the stream to offset 55, and the 0x80 and the length take nine bytes more. -/
theorem paddedStreamShape : Obligations.PaddedStreamShape := by
  intro m
  have hlt := zeroCount_lt m.length
  have h55 := zeroCount_ends_at_55 m.length
  refine ⟨⟨zeroCount m.length, hlt, h55, ?shape⟩, ?blocks, ?enough, ?least⟩
  case shape => simp [pad]
  all_goals
    rw [pad_length]
    omega

/-! ### Step 2 of FINAL -/

/-- After the 0x80 the zero bytes lead to offset 56 (44 R112). -/
theorem Engine.padZeros_absorb_mark (e : Engine) :
    Engine.padZeros 64 (e.absorb 0x80) = e.absorbAll (padMark (pendingOffset e.count).toNat) := by
  have hoff : (pendingOffset (e.absorb 0x80).count).toNat = ((pendingOffset e.count).toNat + 1) % 64 := by
    rw [Engine.absorb_count]
    exact pendingOffset_add_toNat e.count 1
  have h56 := zeroCount_ends_at_56 (pendingOffset e.count).toNat
  exact Engine.padZeros_eq_absorbAll (zeroCount_lt _) (zeroCount_lt _) (by omega)

theorem Engine.pendingOffset_absorbAll_padMark (e : Engine) :
    (pendingOffset (e.absorbAll (padMark (pendingOffset e.count).toNat)).count).toNat = 56 := by
  rw [Engine.absorbAll_count, pendingOffset_add_toNat, padMark_length]
  have := zeroCount_ends_at_56 (pendingOffset e.count).toNat
  omega

/-- Settles O40: the loop absorbs the zeros that lead to offset 56, and no others lead there. -/
theorem paddingEndsAtOffset56 : Obligations.PaddingEndsAtOffset56 := by
  intro e
  rw [← zeroCount_offset (pendingOffset e.count).isLt, Engine.padZeros_absorb_mark]
  exact ⟨rfl, BitVec.eq_of_toNat_eq e.pendingOffset_absorbAll_padMark⟩

/-! ### The chain over pending and absorbed bytes -/

/-- The bytes that wait in `BUF` for the rest of their block (10 R37). -/
def Engine.pending (e : Engine) : List Byte := e.buf.bytes 0 (pendingOffset e.count).toNat

@[simp] theorem Engine.pending_length (e : Engine) : e.pending.length = (pendingOffset e.count).toNat :=
  Memory.bytes_length ..

theorem Memory.getElem_bytes_zero (m : Memory) {n j : Nat} (hj : j < (m.bytes 0 n).length) :
    (m.bytes 0 n)[j] = m.read (BitVec.ofNat 6 j) := by
  simp [Memory.bytes]

/-- Bytes that fill the block stand behind the pending ones (20 R50). -/
theorem Engine.stored_block_pending {e : Engine} {bs : List Byte} (h : (pendingOffset e.count).toNat + bs.length = 64) :
    (e.stored bs).buf.block = e.pending ++ bs := by
  apply List.ext_getElem
  · simp [h]
  · intro j hj _
    have hj64 : j < 64 := by simpa using hj
    have hoff : (BitVec.ofNat 6 j).toNat = j := by rw [BitVec.toNat_ofNat, Nat.mod_eq_of_lt hj64]
    simp only [Engine.stored, Memory.block, Memory.getElem_bytes_zero]
    rw [Memory.read_copyIn _ _ _ h.le, hoff, h]
    by_cases hpending : j < (pendingOffset e.count).toNat
    · rw [if_neg (by omega), List.getElem_append_left (by simpa using hpending)]
      exact (Memory.getElem_bytes_zero ..).symm
    · rw [if_pos ⟨by omega, hj64⟩, List.getElem_append_right (by simpa using hpending),
        List.getD_eq_getElem _ _ (by omega)]
      simp

/-- Bytes that fill the block are compressed with the pending ones before them (43 R105). -/
theorem Engine.absorbAll_fill_h {e : Engine} {bs : List Byte} (h : (pendingOffset e.count).toNat + bs.length = 64) :
    (e.absorbAll bs).h = compress e.h (e.pending ++ bs) := by
  have hoff : (pendingOffset e.count).toNat < 64 := (pendingOffset e.count).isLt
  rw [Engine.absorbAll_full e bs (List.ne_nil_of_length_pos (by omega)) h, Engine.transform_h,
    Engine.stored_block_pending h, Engine.stored]

/-! ### FINAL -/

/-- The bytes FINAL adds to the pending ones: the mark, the zeros and the bit length (44 R119). -/
def Engine.tail (e : Engine) : List Byte :=
  padMark (pendingOffset e.count).toNat ++ beBytes 8 (bitLength e.count).toNat

theorem Engine.lastBytes_eq (e : Engine) : e.lastBytes = e.pending ++ e.tail := by
  simp [Engine.lastBytes, Engine.pending, Engine.tail, padMark]

theorem Engine.tail_length (e : Engine) : e.tail.length = zeroCount (pendingOffset e.count).toNat + 9 := by
  rw [Engine.tail, List.length_append, padMark_length, beBytes_length]

/-- `P` is one block if the mark and the length fit behind the pending bytes, and two if not (44 R119). -/
theorem Engine.lastBytes_length (e : Engine) :
    e.lastBytes.length = if (pendingOffset e.count).toNat ≤ 55 then 64 else 128 := by
  have hoff : (pendingOffset e.count).toNat < 64 := (pendingOffset e.count).isLt
  rw [Engine.lastBytes_eq, List.length_append, Engine.pending_length, Engine.tail_length, zeroCount_offset hoff]
  split <;> omega

/-- Steps 1 to 4 of FINAL act on `H` as absorbing the tail would (44 R110, R111, R114, R116). -/
theorem Engine.padded_transform_h_eq_absorbAll (e : Engine) : e.padded.transform.h = (e.absorbAll e.tail).h := by
  rw [Engine.padded, Engine.padZeros_absorb_mark,
    Engine.storeLength_transform_h e.latchBitLength.pendingOffset_absorbAll_padMark, Engine.absorbAll_bitlen,
    ← Engine.absorbAll_append, Engine.latchBitLength_eq, Engine.withBitlen_bitlen, Engine.withBitlen_count,
    ← Engine.tail, Engine.absorbAll_withBitlen, Engine.withBitlen_h]

/-- Absorbing the tail compresses `P`, whose first block ends where the pending one fills (44 R119). -/
theorem Engine.absorbAll_tail_h (e : Engine) : (e.absorbAll e.tail).h = e.lastChaining := by
  have hoff : (pendingOffset e.count).toNat < 64 := (pendingOffset e.count).isLt
  have hlen : (pendingOffset e.count).toNat + e.tail.length = e.lastBytes.length := by
    rw [Engine.lastBytes_eq, List.length_append, Engine.pending_length]
  rw [Engine.lastBytes_length] at hlen
  rw [Engine.lastChaining, Engine.lastBytes_eq]
  split
  case isTrue hone =>
    rw [if_pos hone] at hlen
    exact Engine.absorbAll_fill_h hlen
  case isFalse htwo =>
    rw [if_neg htwo] at hlen
    have hpending : e.pending.length ≤ 64 := by rw [Engine.pending_length]; omega
    have hfill : (pendingOffset e.count).toNat + (e.tail.take (64 - (pendingOffset e.count).toNat)).length = 64 := by
      rw [List.length_take]; omega
    have hlast : (e.tail.drop (64 - (pendingOffset e.count).toNat)).length = 64 := by rw [List.length_drop]; omega
    calc (e.absorbAll e.tail).h
        = ((e.absorbAll (e.tail.take (64 - (pendingOffset e.count).toNat))).absorbAll
            (e.tail.drop (64 - (pendingOffset e.count).toNat))).h := by
          rw [← Engine.absorbAll_append, List.take_append_drop]
      _ = compress (compress e.h (e.pending ++ e.tail.take (64 - (pendingOffset e.count).toNat)))
            (e.tail.drop (64 - (pendingOffset e.count).toNat)) := by
          rw [Engine.absorbAll_block_h (Engine.pendingOffset_absorbAll_full hfill) hlast, Engine.absorbAll_fill_h hfill]
      _ = compress (compress e.h ((e.pending ++ e.tail).take 64)) ((e.pending ++ e.tail).drop 64) := by
          rw [List.take_append, List.drop_append, List.take_of_length_le hpending, List.drop_of_length_le hpending,
            List.nil_append, Engine.pending_length]

/-- Settles O43: FINAL leaves the wiped engine with the digest, and that serialises the chain over `P`. -/
theorem finalAsAFunction : Obligations.FinalAsAFunction := by
  intro s hr hl
  refine ⟨?final, s.eng.lastBytes_length⟩
  rw [exec_final_live hr hl, Engine.finalize_eq, Engine.padded_transform_h_eq_absorbAll, Engine.absorbAll_tail_h]

end Sys2Proof.Machine
end
